-- ==== Sys2Proof/Word.lean ====
section
/-! DEFINITION. The word types of the IDCB (00_scope.md R11, 10_state.md R38, R39). -/

namespace Sys2Proof

/-- An 8-bit byte or character code (one lane). -/
abbrev Byte := BitVec 8

/-- A 64-bit operand or result word; read as `u64`, or as `s64` by `BitVec.toInt` (00_scope.md R11). -/
abbrev U64 := BitVec 64

/-- A 32-bit command word `CMD` (30_encoding.md R80). -/
abbrev CmdWord := BitVec 32

/-- The 16 byte lanes of `A` or `Q` (10_state.md R38, R39); lane `i` is `v[i]`. -/
abbrev Lanes := Vector Byte 16

end Sys2Proof
end

