-- ==== Sys2Proof/Config.lean ====
section
/-! DEFINITION. What a build of the IDCB fixes (00_scope.md R6) and the free values of the model: constants with no
body, of which nothing can be proved (93_implementation_defined.md I4 to I6). -/

namespace Sys2Proof

/-- The two values of the build parameter `P_DEC10_EXCESS` (00_scope.md R6, 42_base32.md R202). -/
inductive Dec10Excess where
  | discard
  | reject
  deriving DecidableEq, Repr, Inhabited

/-- `P_DEC10_EXCESS` of a build that leaves it open (00_scope.md R6 "OPEN (no default is normative)",
92_eei_decisions.md D22). A free value: no claim can rest on one of the two (log entry 2). -/
opaque Config.dec10Excess : Dec10Excess

/-- How many choices after it was last served, at the n-th choice, host `h`'s turn comes: a free value
(20_memory.md R62 "a model admits every interleaving", 93_implementation_defined.md I5; log entry 7). It is finite,
which is the weak fairness of 20_memory.md R70. -/
opaque Config.wait (h n : Nat) : Nat

/-- What an asserted reset that finds commands pending makes the next event: the reset, which discards them all, or the
fate of one of them (70_reset_and_hazards.md R271). -/
inductive ResetChoice where
  /-- The reset happens. -/
  | resetNow
  /-- One more command is executed before the reset. -/
  | executeNext
  /-- One more command is discarded with no response. -/
  | discardNext
  deriving DecidableEq, Repr, Inhabited

/-- What becomes of pending commands at a reset, at the n-th choice: a free value (70_reset_and_hazards.md R271 "a model
admits both", 93_implementation_defined.md I6; log entry 8). -/
opaque Config.atReset : Nat → ResetChoice

/-- The build parameters the model takes as arguments (00_scope.md R6). `N_HOSTS` is the number of hosts in the
state. No step changes a build. -/
structure Build where
  /-- `P_HEADROOM`, 0..79: the top bits of a fresh draw forced to 0 (41_monotonic.md R172). -/
  headroom : Fin 80
  /-- `P_DEC10_EXCESS`; `none` leaves it open. -/
  dec10Excess : Option Dec10Excess
  deriving DecidableEq, Repr

/-- The value of `P_DEC10_EXCESS` a build runs with: the named one, or the free value where it is left open. -/
def Build.excess (b : Build) : Dec10Excess := b.dec10Excess.getD Config.dec10Excess

/-- The build with every default of 00_scope.md R6: `P_HEADROOM = 1`, `P_DEC10_EXCESS` open. -/
def Build.default : Build := ⟨1, none⟩

end Sys2Proof
end

