-- ==== Sys2Proof/Machine/State.lean ====
section
/-! DEFINITION. The state of the IDCB as plain data (10_state.md R20 to R45), the records and ports of its interface
(R38 to R40), the hosts around it (00_scope.md R8), and the state after reset (R44, 70_reset_and_hazards.md R270). -/

namespace Sys2Proof.Machine

/-- The registers of the SF unit (10_state.md R23 to R27, R30, R31). -/
structure SfUnit where
  /-- SF_CFG_VALID (R23). -/
  cfgValid : Bool
  /-- SF_TS_BITS, u6 (R24). -/
  tsBits : BitVec 6
  /-- SF_GEN_BITS, u5 (R25). -/
  genBits : BitVec 5
  /-- SF_SEQ_BITS, u5 (R26). -/
  seqBits : BitVec 5
  /-- SF_GEN_ID, u31 (R27). -/
  genId : BitVec 31
  /-- SF_LAST_TICK, s64 (R30). -/
  lastTick : U64
  /-- SF_SEQUENCE, u31 (R31). -/
  sequence : BitVec 31
  deriving DecidableEq, Repr

/-- The registers of the MC unit (10_state.md R33 to R35). -/
structure McUnit where
  /-- MC_PRIMED (R33). -/
  primed : Bool
  /-- MC_LAST_MILLIS, s64 (R34). -/
  lastMillis : U64
  /-- MC_LAST_RAND, u80: the integer `BE(r[0..9])` of its ten bytes (R35; log entry 9). -/
  lastRand : BitVec 80
  deriving DecidableEq, Repr

/-- The status registers (10_state.md R37). -/
structure Status where
  /-- LAST_ERR, u4. -/
  lastErr : BitVec 4
  /-- LAST_INFO, u8. -/
  lastInfo : Byte
  /-- ERR_SEEN, sticky. -/
  errSeen : Bool
  deriving DecidableEq, Repr

/-- A command record (10_state.md R38). -/
structure Command where
  /-- CMD. -/
  word : CmdWord
  /-- A, 16 byte lanes. -/
  a : Lanes
  /-- B, u64. -/
  b : U64
  /-- C, u64. -/
  c : U64
  deriving DecidableEq, Repr

/-- What the three input ports present while a command is executed (10_state.md R40); free inputs (log entry 4). -/
structure Ports where
  /-- tick_in, s64. -/
  tickIn : U64
  /-- millis_in, s64. -/
  millisIn : U64
  /-- rand_in, 10 bytes, byte 0 most significant. -/
  randIn : Vector Byte 10
  deriving DecidableEq, Repr

/-- How often the command being executed has sampled each port (10_state.md R40 "sampled at most once"; the
model's own record, log entry 5). -/
structure PortReads where
  /-- Samples of tick_in. -/
  tick : Nat
  /-- Samples of millis_in. -/
  millis : Nat
  /-- Samples of rand_in. -/
  rand : Nat
  deriving DecidableEq, Repr

/-- The 16 lanes all 0. -/
def zeroLanes : Lanes := Vector.replicate 16 0#8

/-- The payload of a response; a field a command's rule does not write is 0 (10_state.md R39). -/
structure Payload where
  /-- Q, 16 byte lanes. -/
  q : Lanes := zeroLanes
  /-- W0, u64. -/
  w0 : U64 := 0#64
  /-- W1, u64. -/
  w1 : U64 := 0#64
  /-- W2, u64. -/
  w2 : U64 := 0#64
  deriving DecidableEq, Repr

/-- A response record (10_state.md R39). -/
structure Response where
  /-- Q, W0, W1, W2. -/
  payload : Payload
  /-- ERR, u4. -/
  err : BitVec 4
  /-- INFO, u8. -/
  info : Byte
  deriving DecidableEq, Repr

/-- A command as a host issues it, with the values its ports will present to it (10_state.md R38, R40; log entry 4). -/
structure Request where
  /-- The command record. -/
  command : Command
  /-- The port values its step samples. -/
  ports : Ports
  deriving DecidableEq, Repr

/-- One host agent (00_scope.md R8). -/
structure HostPort where
  /-- Commands issued and not executed yet, oldest first (20_memory.md R62). -/
  issued : List Request
  /-- Responses delivered to this host, oldest first (10_state.md R39). -/
  answers : List Response
  /-- How many choices the arbiter had made when this host's last command was taken; the model's own record, to which
  the free value of its next turn is applied (log entry 7). -/
  servedAt : Nat
  deriving DecidableEq, Repr

/-- The whole state: the registers of 10_state.md R20, the interface records of the command being executed, and the
world the interface faces. The two ROMs of R20 are hard-wired and stand in Machine/Rom.lean (log entry 10). -/
structure State where
  /-- The SF unit. -/
  sf : SfUnit
  /-- The MC unit. -/
  mc : McUnit
  /-- LAST_ERR, LAST_INFO, ERR_SEEN. -/
  status : Status
  /-- The command record presented to the IDCB (R38). -/
  cmd : Command
  /-- The input ports (R40). -/
  ports : Ports
  /-- Port samples of the command being executed (R40). -/
  reads : PortReads
  /-- The response record (R39). -/
  resp : Response
  /-- The hosts; `N_HOSTS` is their number (00_scope.md R6, R8). -/
  hosts : List HostPort
  /-- The reset input (70_reset_and_hazards.md R270). -/
  resetIn : Bool
  /-- How many choices the arbiter has made; the free values are applied to it (log entries 7 and 8). -/
  choices : Nat
  /-- The build parameters (00_scope.md R6). -/
  build : Build
  deriving DecidableEq, Repr

/-- No step of the IDCB stops with a fault: "every command word, in every state, ends with exactly one response"
(93_implementation_defined.md, after I11; 60_exceptions.md R234, R236). So there is no reason to fault, nobody raises
one, and the type is empty: safe, since nothing is hidden behind it (log entry 13). -/
inductive Fault where
  deriving DecidableEq, Repr

/-- Why a command has no meaning. -/
inductive Refusal where
  /-- A command whose arm of `exec` has no meaning yet would answer this with its mnemonic; no arm does. Safe: it
  stops where the hardware goes on. -/
  | notModelled (mnemonic : String)
  deriving DecidableEq, Repr

/-- The SF unit after reset (10_state.md R44): no layout, SF_LAST_TICK = -1. -/
def SfUnit.reset : SfUnit := ⟨false, 0, 0, 0, 0, 0xFFFFFFFFFFFFFFFF#64, 0⟩

/-- The MC unit after reset (10_state.md R44). -/
def McUnit.reset : McUnit := ⟨false, 0, 0⟩

/-- The status registers after reset (10_state.md R44). -/
def Status.reset : Status := ⟨0, 0, false⟩

/-- The state right after reset: every register as in 10_state.md R44; one host (the default of `N_HOSTS`), which
has issued nothing; the records, ports and the model's own counters at 0 (log entry 11). -/
def State.reset : State where
  sf := SfUnit.reset
  mc := McUnit.reset
  status := Status.reset
  cmd := ⟨0, zeroLanes, 0, 0⟩
  ports := ⟨0, 0, Vector.replicate 10 0⟩
  reads := ⟨0, 0, 0⟩
  resp := ⟨⟨zeroLanes, 0, 0, 0⟩, 0, 0⟩
  hosts := [⟨[], [], 0⟩]
  resetIn := false
  choices := 0
  build := Build.default

end Sys2Proof.Machine
end

