-- ==== Sys2Proof/Machine/Flags.lean ====
section
/-! DEFINITION. Error codes (60_exceptions.md R230) and what every command does to the status registers
(10_state.md R37, 60_exceptions.md R234). The IDCB has no condition codes (10_state.md R41). -/

namespace Sys2Proof.Machine

/-- The error kinds (60_exceptions.md R230). -/
inductive ErrKind where
  | configError
  | clockMovedBackward
  | sequenceOverflow
  | invalidArgument
  | invalidLength
  | randomnessExhausted
  | notConfigured
  | illegalCommand
  deriving DecidableEq, Repr

/-- The code of an error in `ERR` (60_exceptions.md R230). -/
def errCode : ErrKind → BitVec 4
  | .configError => 1
  | .clockMovedBackward => 2
  | .sequenceOverflow => 3
  | .invalidArgument => 4
  | .invalidLength => 5
  | .randomnessExhausted => 6
  | .notConfigured => 7
  | .illegalCommand => 8

/-- The status after a successful command: LAST_ERR and LAST_INFO 0, ERR_SEEN unchanged (60_exceptions.md R234). -/
def statusOk (st : Status) : Status := { st with lastErr := 0, lastInfo := 0 }

/-- The status after an error: its code and info recorded, ERR_SEEN set (60_exceptions.md R234). -/
def statusErr (e : ErrKind) (info : Byte) : Status := ⟨errCode e, info, true⟩

/-- One violated check of an error mask: `bit` when the check fails, else 0 (60_exceptions.md R230, R235 item 6). -/
def checkBit (violated : Bool) (bit : Byte) : Byte := if violated then bit else 0#8

end Sys2Proof.Machine
end

