-- ==== Sys2Proof/Machine/Operands.lean ====
section
/-! DEFINITION. Byte sequences and integers (00_scope.md R10, 20_memory.md R60, R61), the assembly of every operand
form (30_encoding.md R84 to R89) and the packing of results (R90). -/

namespace Sys2Proof.Machine

/-- `ones(n) = 2^n - 1` (00_scope.md R10), in `w` bits. -/
def ones (w n : Nat) : BitVec w := BitVec.ofNat w (2 ^ n - 1)

/-- `BE(b[0..n-1])`: byte 0 most significant (00_scope.md R10). -/
def be (bs : List Byte) : Nat := bs.foldl (fun acc x => acc * 256 + x.toNat) 0

/-- `BYTES_n(v)`: the inverse of `BE` for `v < 2^(8n)` (00_scope.md R10). -/
def bytes : Nat → Nat → List Byte
  | 0, _ => []
  | n + 1, v => bytes n (v / 256) ++ [BitVec.ofNat 8 v]

/-- `lane(A, i)`: byte lane `i` of an operand (00_scope.md R12). -/
def lane (a : Lanes) (i : Nat) : Byte := a.toList.getD i 0#8

/-- Lanes 0..n-1 in order (30_encoding.md R89). -/
def laneList (a : Lanes) (n : Nat) : List Byte := a.toList.take n

/-- A sequence written to lanes 0..k-1; lanes at and above `k` are 0 (30_encoding.md R89). -/
def lanesOf (bs : List Byte) : Lanes := Vector.ofFn fun i => bs.getD i.val 0#8

/-- Sixteen lanes on one 128-bit bus: lane `i` is bus bits `[8i+7:8i]` (20_memory.md R61). -/
def busOf (a : Lanes) : BitVec 128 := BitVec.ofNat 128 (be a.toList.reverse)

/-- The u80 integer of ten bytes, byte 0 most significant (10_state.md R35, 20_memory.md R60). -/
def u80Of (bs : List Byte) : BitVec 80 := BitVec.ofNat 80 (be bs)

/-- The ten bytes of a u80 (10_state.md R35): `BYTES_10`. -/
def bytes10 (r : BitVec 80) : List Byte := bytes 10 r.toNat

/-- A one-bit register as a u64 result word. -/
def bitWord (f : Bool) : U64 := if f then 1#64 else 0#64

/-- SF_CONFIG operand `B`, field TS (30_encoding.md R85). -/
def configTs (b : U64) : Byte := b.extractLsb' 0 8

/-- SF_CONFIG operand `B`, field GEN (30_encoding.md R85). -/
def configGen (b : U64) : Byte := b.extractLsb' 8 8

/-- SF_CONFIG operand `B`, field SEQ (30_encoding.md R85). -/
def configSeq (b : U64) : Byte := b.extractLsb' 16 8

/-- SF_CONFIG operand `B`, field CRSV (30_encoding.md R85). -/
def configCrsv (b : U64) : Byte := b.extractLsb' 24 8

/-- SF_CONFIG operand `B`, field GID (30_encoding.md R85). -/
def configGid (b : U64) : BitVec 32 := b.extractLsb' 32 32

/-- The operand `B` of SF_CONFIG from its fields (30_encoding.md R85, R93). -/
def configOperand (ts gen seq crsv : Byte) (gid : BitVec 32) : U64 := gid ++ crsv ++ seq ++ gen ++ ts

/-- MC_SETSTATE operand: the new lastRandomness is `A[0..9]`, `A[0]` most significant (30_encoding.md R88). -/
def setstateRand (c : Command) : BitVec 80 := u80Of (laneList c.a 10)

/-- MC_SETSTATE operand: the new MC_PRIMED is `C[0]` (30_encoding.md R88). -/
def setstatePrimed (c : Command) : Bool := c.c.getLsbD 0

/-- MC_SETSTATE operand: `C[63:1]`, which must be 0 (30_encoding.md R88). -/
def setstateExcess (c : Command) : BitVec 63 := c.c.extractLsb' 1 63

/-- SF_QLAYOUT result `W0`: three widths and their total, a byte each (30_encoding.md R90). -/
def packWidths (ts gen seq total : Nat) : U64 :=
  BitVec.ofNat 64 ts ||| (BitVec.ofNat 64 gen <<< 8) ||| (BitVec.ofNat 64 seq <<< 16) |||
    (BitVec.ofNat 64 total <<< 24)

/-- SF_QLAYOUT result `W2`: the two shifts, a byte each (30_encoding.md R90). -/
def packShifts (shTime shGen : Nat) : U64 := BitVec.ofNat 64 shTime ||| (BitVec.ofNat 64 shGen <<< 8)

end Sys2Proof.Machine
end

