-- ==== Sys2Proof/Machine/Ops.lean ====
section
/-! DEFINITION. The operations every command is built from: answering, raising an error (the IDCB's whole exception
mechanism, 60_exceptions.md R234, R236), the configuration gate, sampling a port; and the operations of the world
around it: issuing, arbitration, presenting a command, delivering its response, reset. -/

namespace Sys2Proof.Machine

/-- A step's answer. -/
abbrev Result := Host.Outcome State Fault Refusal

/-- `respond(...)`: a successful command ends with this payload, ERR = 0 and INFO = 0
(00_scope.md R12, 60_exceptions.md R234). -/
def respond (p : Payload) (s : State) : Result :=
  .next { s with status := statusOk s.status, resp := ⟨p, 0, 0⟩ }

/-- `raise E(info)`: the command ends with the error's code, its info and a zero payload; no unit register changes
(00_scope.md R12, 60_exceptions.md R234). -/
def raise (e : ErrKind) (info : Byte) (s : State) : Result :=
  .next { s with status := statusErr e info, resp := ⟨{}, errCode e, info⟩ }

/-- The common gate of the SF commands: NotConfigured(0) while SF_CFG_VALID is 0, before any operand or port is
read (40_bitpack.md R120, 60_exceptions.md R231). -/
def gated (s : State) (k : State → Result) : Result :=
  if s.sf.cfgValid then k s else raise .notConfigured 0 s

/-- `sample(tick_in)`: the value presented (10_state.md R40). -/
def tickSample (s : State) : U64 := s.ports.tickIn

/-- The state once `tick_in` has been sampled. -/
def tickSampled (s : State) : State := { s with reads := { s.reads with tick := s.reads.tick + 1 } }

/-- `sample(millis_in)`: the value presented (10_state.md R40). -/
def millisSample (s : State) : U64 := s.ports.millisIn

/-- The state once `millis_in` has been sampled. -/
def millisSampled (s : State) : State := { s with reads := { s.reads with millis := s.reads.millis + 1 } }

/-- `BE(sample(rand_in))`: the ten bytes presented, byte 0 most significant (10_state.md R40, 41_monotonic.md R170). -/
def randSample (s : State) : BitVec 80 := u80Of s.ports.randIn.toList

/-- The state once `rand_in` has been sampled. -/
def randSampled (s : State) : State := { s with reads := { s.reads with rand := s.reads.rand + 1 } }

/-- A host issues a command: it joins the end of that host's own queue (00_scope.md R8, 20_memory.md R62). -/
def issue (h : Nat) (r : Request) (s : State) : State :=
  { s with hosts := s.hosts.modify h fun p => { p with issued := p.issued ++ [r] } }

/-- The reset input is asserted (70_reset_and_hazards.md R270). -/
def assertReset (s : State) : State := { s with resetIn := true }

/-- The numbers, from `n` on, of the hosts that have a command waiting. -/
def readyFrom : List HostPort → Nat → List Nat
  | [], _ => []
  | p :: ps, n => if p.issued = [] then readyFrom ps (n + 1) else n :: readyFrom ps (n + 1)

/-- The hosts that have a command waiting. -/
def readyHosts (s : State) : List Nat := readyFrom s.hosts 0

/-- The choice by which host `h`'s turn comes: a free finite wait after it was last served (20_memory.md R62, R70). -/
def turn (s : State) (h : Nat) : Nat :=
  match s.hosts[h]? with
  | some p => p.servedAt + Config.wait h p.servedAt
  | none => 0

/-- The entry of `h :: rest` whose `key` is least, the first of those where several are. -/
def soonest (key : Nat → Nat) (h : Nat) : List Nat → Nat
  | [] => h
  | x :: xs => if key x < key h then soonest key x xs else soonest key h xs

/-- The host granted among the waiting hosts `h :: rest`: the one whose turn comes first. The turns are free, so any
interleaving can come of it (20_memory.md R62), but no host waits for ever (R70). -/
def granted (h : Nat) (rest : List Nat) (s : State) : Nat := soonest (turn s) h rest

/-- The next event of the total order of commands and resets (20_memory.md R62, 70_reset_and_hazards.md R271). -/
inductive Event where
  /-- Nothing is presented. -/
  | idle
  /-- A reset. -/
  | reset
  /-- The oldest waiting command of this host is executed. -/
  | command (host : Nat)
  /-- The oldest waiting command of this host is discarded by the asserted reset. -/
  | discard (host : Nat)
  deriving DecidableEq, Repr

/-- Which event is next. A reset that finds commands waiting happens now, or after one more of them is executed or
discarded: a free choice (70_reset_and_hazards.md R271). -/
def nextEvent (s : State) : Event :=
  match s.resetIn, readyHosts s with
  | false, [] => .idle
  | true, [] => .reset
  | false, h :: rest => .command (granted h rest s)
  | true, h :: rest =>
    match Config.atReset s.choices with
    | .resetNow => .reset
    | .executeNext => .command (granted h rest s)
    | .discardNext => .discard (granted h rest s)

/-- Reset: every register takes its value of 10_state.md R44 in one step, and commands not executed yet are discarded
with no response (70_reset_and_hazards.md R270, R271). Responses already delivered stay with their hosts. -/
def resetState (s : State) : State :=
  { State.reset with
    hosts := s.hosts.map fun p => { p with issued := [] }
    choices := s.choices + 1
    build := s.build }

/-- The request at the head of a host's queue. -/
def headRequest (h : Nat) (s : State) : Option Request :=
  match s.hosts[h]? with
  | some p => p.issued.head?
  | none => none

/-- A request is presented: its record and port values stand at the interface, no port sampled yet
(10_state.md R38, R40). -/
def present (r : Request) (s : State) : State :=
  { s with cmd := r.command, ports := r.ports, reads := ⟨0, 0, 0⟩ }

/-- The oldest command of host `h` leaves its queue, and the host's next turn is drawn (20_memory.md R62, R70). -/
def takeFrom (h : Nat) (s : State) : State :=
  { s with
    hosts := s.hosts.modify h fun p => { p with issued := p.issued.tail, servedAt := s.choices + 1 }
    choices := s.choices + 1 }

/-- The response is delivered to the host that issued the command and to no other (10_state.md R39). -/
def deliver (h : Nat) (s : State) : State :=
  { s with hosts := s.hosts.modify h fun p => { p with answers := p.answers ++ [s.resp] } }

/-- Every queue emptied but the first host's, which holds just `r`; a first host is supplied where there is none. -/
def onlyRequest (r : Request) : List HostPort → List HostPort
  | [] => [⟨[r], [], 0⟩]
  | p :: ps => { p with issued := [r] } :: ps.map fun p => { p with issued := [] }

end Sys2Proof.Machine
end

