-- ==== Sys2Proof/Machine/Rom.lean ====
section
/-! DEFINITION. The two read-only tables of the B32 unit, each read by one operation (10_state.md R36; contents
42_base32.md R190, R191). They are hard-wired: no command writes them and reset does not change them. -/

namespace Sys2Proof.Machine

/-- ALPHABET[0..31]: the character codes of `0123456789ABCDEFGHJKMNPQRSTVWXYZ` (42_base32.md R190). -/
def alphabet : List Byte :=
  [0x30, 0x31, 0x32, 0x33, 0x34, 0x35, 0x36, 0x37] ++
  [0x38, 0x39, 0x41, 0x42, 0x43, 0x44, 0x45, 0x46] ++
  [0x47, 0x48, 0x4A, 0x4B, 0x4D, 0x4E, 0x50, 0x51] ++
  [0x52, 0x53, 0x54, 0x56, 0x57, 0x58, 0x59, 0x5A]

/-- Reading ALPHABET at a digit value `v` in 0..31 (42_base32.md R190). -/
def alphabetAt (v : Nat) : Byte := alphabet.getD v 0

/-- The sentinel of DECODE_TABLE (42_base32.md R191). -/
def sentinel : Byte := 0xFF#8

/-- The index of the first entry equal to `c`, counted from `v`. -/
def digitFrom (c : Byte) : List Byte → Nat → Option Nat
  | [], _ => none
  | x :: xs, v => if x = c then some v else digitFrom c xs (v + 1)

/-- The entry of DECODE_TABLE for one code: `v` when `c = ALPHABET[v]`, else the sentinel (42_base32.md R191). -/
def decodeEntry (c : Byte) : Byte :=
  match digitFrom c alphabet 0 with
  | some v => BitVec.ofNat 8 v
  | none => sentinel

/-- DECODE_TABLE[0..255] (42_base32.md R191). -/
def decodeTable : List Byte := (List.range 256).map fun c => decodeEntry (BitVec.ofNat 8 c)

/-- Reading DECODE_TABLE at an 8-bit character code (10_state.md R36). -/
def decodeAt (c : Byte) : Byte := decodeTable.getD c.toNat sentinel

end Sys2Proof.Machine
end

