-- ==== Sys2Proof/Machine/Base32.lean ====
section
/-! DEFINITION. The commands of the B32 unit (42_base32.md). -/

namespace Sys2Proof.Machine

/-- The `k` 5-bit digits of `v`, most significant first: digit `j` is `(v >> 5(k-1-j)) & 31`
(42_base32.md R192 to R194). -/
def digits (k v : Nat) : List Nat := (List.range k).map fun j => (v >>> (5 * (k - 1 - j))) % 32

/-- The `k` characters that spell `v` (42_base32.md R192). -/
def encodeChars (k v : Nat) : List Byte := (digits k v).map alphabetAt

/-- The number of characters that spell `n` bytes (42_base32.md R192). -/
def encodedLength (n : Nat) : Nat := if n = 6 then 10 else 16

/-- B32_ENC: encode a 6-byte or 10-byte chunk (42_base32.md R192). -/
def execB32Enc (n : Nat) (s : State) : Result :=
  if n ≠ 6 ∧ n ≠ 10 then raise .invalidLength (BitVec.ofNat 8 n) s
  else respond { q := lanesOf (encodeChars (encodedLength n) (be (laneList s.cmd.a n))) } s

/-- The position, counted from `j`, of the first digit that is a sentinel (≥ 32) (42_base32.md R203). -/
def firstInvalid : List Byte → Nat → Option Nat
  | [], _ => none
  | d :: ds, j => if d.toNat ≥ 32 then some j else firstInvalid ds (j + 1)

/-- The integer of a digit sequence, most significant first: `Σ d[j] << 5(n-1-j)` (42_base32.md R197). -/
def digitsValue (ds : List Byte) : Nat := ds.foldl (fun acc d => acc * 32 + d.toNat) 0

/-- `V[49:48]` of a 50-bit value (42_base32.md R202). -/
def excessBits (v : Nat) : Nat := (v >>> 48) % 4

/-- Ten digits give six bytes; over-range input follows `P_DEC10_EXCESS` (42_base32.md R197, R198, R202). -/
def decoded10 (v : Nat) (s : State) : Result :=
  if excessBits v ≠ 0 ∧ s.build.excess = .reject then raise .invalidArgument 0x80 s
  else respond { q := lanesOf (bytes 6 (v % 2 ^ 48)) } s

/-- Sixteen digits give ten bytes (42_base32.md R197, R199). -/
def decoded16 (v : Nat) (s : State) : Result := respond { q := lanesOf (bytes 10 v) } s

/-- B32_DEC once its length is known to be 10 or 16: characters before excess (42_base32.md R197, 60_exceptions.md
R235 item 4). -/
def decodeDigits (n : Nat) (ds : List Byte) (s : State) : Result :=
  match firstInvalid ds 0 with
  | some j => raise .invalidArgument (BitVec.ofNat 8 j) s
  | none => if n = 10 then decoded10 (digitsValue ds) s else decoded16 (digitsValue ds) s

/-- B32_DEC: decode a 10-character or 16-character string (42_base32.md R197). -/
def execB32Dec (n : Nat) (s : State) : Result :=
  if n ≠ 10 ∧ n ≠ 16 then raise .invalidLength (BitVec.ofNat 8 n) s
  else decodeDigits n ((laneList s.cmd.a n).map decodeAt) s

end Sys2Proof.Machine
end

