-- ==== Sys2Proof/Syntax.lean ====
section
/-! DEFINITION. The fourteen commands of the opcode map (30_encoding.md R82), one constructor per row of the table. -/

namespace Sys2Proof

/-- A decoded command. Only the two codec commands carry a field of the word: their length operand
`LEN`, a count (30_encoding.md R84). Every other operand travels in the command record (10_state.md R38). -/
inductive Instr where
  | nop
  | sfConfig
  | sfCreate
  | sfDecode
  | sfQcap
  | sfQmask
  | sfQlayout
  | sfGetstate
  | sfSetstate
  | mcNext
  | mcGetstate
  | mcSetstate
  | b32Enc (len : Nat)
  | b32Dec (len : Nat)
  deriving DecidableEq, Repr

/-- The unit a command belongs to (30_encoding.md R82, column "unit"). -/
inductive CommandUnit where
  | control
  | sf
  | mc
  | b32
  deriving DecidableEq, Repr

end Sys2Proof
end

