-- ==== Sys2Proof/WellFormed.lean ====
section
/-! DEFINITION. Which commands have an encoding: `LEN` is a u5 (30_encoding.md R80, R84). -/

namespace Sys2Proof

/-- A command is well formed when its `LEN` fits the five bits of `CMD[12:8]` (30_encoding.md R80, R84). -/
def wellFormed : Instr → Bool
  | .nop => true
  | .sfConfig => true
  | .sfCreate => true
  | .sfDecode => true
  | .sfQcap => true
  | .sfQmask => true
  | .sfQlayout => true
  | .sfGetstate => true
  | .sfSetstate => true
  | .mcNext => true
  | .mcGetstate => true
  | .mcSetstate => true
  | .b32Enc len => decide (len < 32)
  | .b32Dec len => decide (len < 32)

end Sys2Proof
end

