-- ==== Sys2Proof/Decode.lean ====
section
/-! DEFINITION. The command word: its fields, the total decoder and the encoder
(30_encoding.md R80 to R82, R91, R92). -/

namespace Sys2Proof

/-- `OPC = CMD[7:0]` (30_encoding.md R80). -/
def opcOf (w : CmdWord) : Byte := w.extractLsb' 0 8

/-- `LEN = CMD[12:8]` (30_encoding.md R80). -/
def lenOf (w : CmdWord) : BitVec 5 := w.extractLsb' 8 5

/-- `RSV = CMD[31:13]` (30_encoding.md R80). -/
def rsvOf (w : CmdWord) : BitVec 19 := w.extractLsb' 13 19

/-- The commands whose `LEN` must be 0 and their operation codes (30_encoding.md R82). -/
def decodeFixed (opc : Byte) : Option Instr :=
  if opc = 0x01#8 then some .nop
  else if opc = 0x10#8 then some .sfConfig
  else if opc = 0x11#8 then some .sfCreate
  else if opc = 0x12#8 then some .sfDecode
  else if opc = 0x13#8 then some .sfQcap
  else if opc = 0x14#8 then some .sfQmask
  else if opc = 0x15#8 then some .sfQlayout
  else if opc = 0x16#8 then some .sfGetstate
  else if opc = 0x17#8 then some .sfSetstate
  else if opc = 0x20#8 then some .mcNext
  else if opc = 0x21#8 then some .mcGetstate
  else if opc = 0x22#8 then some .mcSetstate
  else none

/-- The two codec commands, which take `LEN` (30_encoding.md R82, R84). -/
def decodeCodec (opc : Byte) (len : Nat) : Option Instr :=
  if opc = 0x30#8 then some (.b32Enc len)
  else if opc = 0x31#8 then some (.b32Dec len)
  else none

/-- Decoding, total on all 2^32 words (30_encoding.md R92); `none` is ILLEGAL (R91). -/
def decode (w : CmdWord) : Option Instr :=
  if rsvOf w ≠ 0#19 then none
  else
    match decodeCodec (opcOf w) (lenOf w).toNat with
    | some i => some i
    | none => if lenOf w = 0#5 then decodeFixed (opcOf w) else none

/-- The operation code of a command (30_encoding.md R82). -/
def opcode : Instr → Byte
  | .nop => 0x01#8
  | .sfConfig => 0x10#8
  | .sfCreate => 0x11#8
  | .sfDecode => 0x12#8
  | .sfQcap => 0x13#8
  | .sfQmask => 0x14#8
  | .sfQlayout => 0x15#8
  | .sfGetstate => 0x16#8
  | .sfSetstate => 0x17#8
  | .mcNext => 0x20#8
  | .mcGetstate => 0x21#8
  | .mcSetstate => 0x22#8
  | .b32Enc _ => 0x30#8
  | .b32Dec _ => 0x31#8

/-- The `LEN` field of a command: its length operand, 0 for every command without one (30_encoding.md R82, R84). -/
def lenField : Instr → Nat
  | .nop => 0
  | .sfConfig => 0
  | .sfCreate => 0
  | .sfDecode => 0
  | .sfQcap => 0
  | .sfQmask => 0
  | .sfQlayout => 0
  | .sfGetstate => 0
  | .sfSetstate => 0
  | .mcNext => 0
  | .mcGetstate => 0
  | .mcSetstate => 0
  | .b32Enc len => len
  | .b32Dec len => len

/-- The word of a well-formed command: `RSV ‖ LEN ‖ OPC` with `RSV = 0` (30_encoding.md R80). -/
def encode (i : Instr) : CmdWord := 0#19 ++ BitVec.ofNat 5 (lenField i) ++ opcode i

/-- The unit of a command (30_encoding.md R82). -/
def unitOf : Instr → CommandUnit
  | .nop => .control
  | .sfConfig => .sf
  | .sfCreate => .sf
  | .sfDecode => .sf
  | .sfQcap => .sf
  | .sfQmask => .sf
  | .sfQlayout => .sf
  | .sfGetstate => .sf
  | .sfSetstate => .sf
  | .mcNext => .mc
  | .mcGetstate => .mc
  | .mcSetstate => .mc
  | .b32Enc _ => .b32
  | .b32Dec _ => .b32

/-- The command word whose low `nbits` bits are those of `w` and whose higher bits are 0. -/
def tableWord (nbits w : Nat) : CmdWord := BitVec.ofNat 32 (w % 2 ^ nbits)

/-- The command the decoder reads from a table row's bits. Every command word is exactly 32 bits
(30_encoding.md R81), so a wider row has no command. -/
def decodeTableWord (nbits w : Nat) : Option Instr :=
  if nbits ≤ 32 then decode (tableWord nbits w) else none

end Sys2Proof
end

