-- ==== Sys2Proof/Machine/Control.lean ====
section
/-! DEFINITION. NOP and illegal command words (43_control.md R220, R221). -/

namespace Sys2Proof.Machine

/-- NOP: do nothing and answer OK (43_control.md R220). -/
def execNop (s : State) : Result := respond {} s

/-- An illegal word raises IllegalCommand with its OPC as info; no operand or port is read (43_control.md R221,
60_exceptions.md R232). -/
def illegalCommand (s : State) : Result := raise .illegalCommand (opcOf s.cmd.word) s

end Sys2Proof.Machine
end

