-- ==== Sys2Proof/Machine/Monotonic.lean ====
section
/-! DEFINITION. The commands of the MC unit (41_monotonic.md). -/

namespace Sys2Proof.Machine

/-- Whether MC_NEXT draws fresh for the sampled millisecond `m`; the comparison is signed (41_monotonic.md R171). -/
def drawsFresh (mc : McUnit) (m : U64) : Bool := !mc.primed || decide (m.toInt > mc.lastMillis.toInt)

/-- A fresh draw with its top `P_HEADROOM` bits forced to 0 (41_monotonic.md R172). -/
def withHeadroom (headroom : Nat) (r : BitVec 80) : BitVec 80 := r &&& ones 80 (80 - headroom)

/-- The exact sum `BE(MC_LAST_RAND) + 1` (41_monotonic.md R173). -/
def incremented (r : BitVec 80) : Nat := r.toNat + 1

/-- The carry out of byte 0 (41_monotonic.md R173): `split_80`'s carry (00_scope.md R11). -/
def carryOut (sum : Nat) : Nat := sum >>> 80

/-- MC_NEXT's answer: the counter, the sampled millisecond, and MC_LAST_MILLIS after the command
(41_monotonic.md R170). -/
def answerNext (m : U64) (mc : McUnit) (s : State) : Result :=
  respond { q := lanesOf (bytes10 mc.lastRand), w0 := m, w1 := mc.lastMillis } { s with mc := mc }

/-- The fresh branch of MC_NEXT, which samples `rand_in` (41_monotonic.md R170, R172). -/
def freshDraw (m : U64) (s : State) : Result :=
  answerNext m ⟨true, m, withHeadroom s.build.headroom.val (randSample s)⟩ (randSampled s)

/-- The increment branch of MC_NEXT; on a carry out it fails and writes no MC state
(41_monotonic.md R170, R173, R174). -/
def incrementDraw (m : U64) (s : State) : Result :=
  if carryOut (incremented s.mc.lastRand) = 1 then raise .randomnessExhausted 0 s
  else answerNext m { s.mc with lastRand := BitVec.ofNat 80 (incremented s.mc.lastRand) } s

/-- MC_NEXT: the ten randomness bytes for this call (41_monotonic.md R170). -/
def execMcNext (s : State) : Result :=
  if drawsFresh s.mc (millisSample s) then freshDraw (millisSample s) (millisSampled s)
  else incrementDraw (millisSample s) (millisSampled s)

/-- MC_GETSTATE: read the counter state (41_monotonic.md R175). -/
def execMcGetstate (s : State) : Result :=
  respond { q := lanesOf (bytes10 s.mc.lastRand), w0 := s.mc.lastMillis, w1 := bitWord s.mc.primed } s

/-- MC_SETSTATE: force the counter state (41_monotonic.md R176). -/
def execMcSetstate (s : State) : Result :=
  if setstateExcess s.cmd ≠ 0 then raise .invalidArgument 1 s
  else respond {} { s with mc := ⟨setstatePrimed s.cmd, s.cmd.b, setstateRand s.cmd⟩ }

end Sys2Proof.Machine
end

