-- ==== Sys2Proof/Machine/Layout.lean ====
section
/-! DEFINITION. The values derived from the layout registers, "never stored, always recomputed" (10_state.md R29),
and the packing of an id (40_bitpack.md R128). -/

namespace Sys2Proof.Machine

/-- `maskTime = ones(t)` (10_state.md R29), carried zero-extended to 64 bits. -/
def maskTime (sf : SfUnit) : U64 := ones 64 sf.tsBits.toNat

/-- `maskGenerator = ones(g)` (10_state.md R29). -/
def maskGenerator (sf : SfUnit) : BitVec 31 := ones 31 sf.genBits.toNat

/-- `maskSequence = ones(s)` (10_state.md R29). -/
def maskSequence (sf : SfUnit) : BitVec 31 := ones 31 sf.seqBits.toNat

/-- `shiftTime = g + s` (10_state.md R29). -/
def shiftTime (sf : SfUnit) : Nat := sf.genBits.toNat + sf.seqBits.toNat

/-- `shiftGenerator = s` (10_state.md R29). -/
def shiftGenerator (sf : SfUnit) : Nat := sf.seqBits.toNat

/-- `maxGenerators = 2^g` (10_state.md R29). -/
def maxGenerators (sf : SfUnit) : Nat := 2 ^ sf.genBits.toNat

/-- `maxSequencePerTick = 2^s` (10_state.md R29; the source's `maxSequenceIds()`, 90_conflicts.md C9). -/
def maxSequencePerTick (sf : SfUnit) : Nat := 2 ^ sf.seqBits.toNat

/-- `maxIntervals = 2^t` (10_state.md R29). -/
def maxIntervals (sf : SfUnit) : Nat := 2 ^ sf.tsBits.toNat

/-- `totalBits = t + g + s` (10_state.md R29). -/
def totalBits (sf : SfUnit) : Nat := sf.tsBits.toNat + sf.genBits.toNat + sf.seqBits.toNat

/-- `pack(ts, gid, sq)` under the layout of `sf` (40_bitpack.md R128). -/
def packId (sf : SfUnit) (ts : U64) (gid sq : BitVec 31) : U64 :=
  (ts <<< shiftTime sf) ||| (gid.setWidth 64 <<< shiftGenerator sf) ||| sq.setWidth 64

/-- The timestamp field of an id (40_bitpack.md R130). -/
def timeField (sf : SfUnit) (id : U64) : U64 := (id >>> shiftTime sf) &&& maskTime sf

/-- The generator field of an id (40_bitpack.md R130). -/
def generatorField (sf : SfUnit) (id : U64) : U64 :=
  (id >>> shiftGenerator sf) &&& (maskGenerator sf).setWidth 64

/-- The sequence field of an id (40_bitpack.md R130). -/
def sequenceField (sf : SfUnit) (id : U64) : U64 := id &&& (maskSequence sf).setWidth 64

end Sys2Proof.Machine
end

