-- ==== Sys2Proof/Machine/Snowflake.lean ====
section
/-! DEFINITION. The commands of the SF unit (40_bitpack.md). -/

namespace Sys2Proof.Machine

/-- The mask of violated SF_CONFIG checks; the sum is of integers and cannot wrap (40_bitpack.md R121). -/
def configViolations (b : U64) : Byte :=
  checkBit (decide ((configTs b).toNat + (configGen b).toNat + (configSeq b).toNat ≠ 63)) 0x01 |||
  checkBit (decide ((configGen b).toNat > 31)) 0x02 |||
  checkBit (decide ((configSeq b).toNat > 31)) 0x04 |||
  checkBit (decide ((configGid b).toNat ≥ 2 ^ (configGen b).toNat)) 0x08 |||
  checkBit (decide (configCrsv b ≠ 0)) 0x10

/-- The SF unit a successful SF_CONFIG leaves: the layout and id of `B`, and the minting state of a new generator
(40_bitpack.md R121). -/
def configured (b : U64) : SfUnit where
  cfgValid := true
  tsBits := (configTs b).setWidth 6
  genBits := (configGen b).setWidth 5
  seqBits := (configSeq b).setWidth 5
  genId := (configGid b).setWidth 31
  lastTick := 0xFFFFFFFFFFFFFFFF#64
  sequence := 0

/-- SF_CONFIG: construct a layout and a generator, whole or not at all (40_bitpack.md R121). -/
def execSfConfig (s : State) : Result :=
  if configViolations s.cmd.b ≠ 0 then raise .configError (configViolations s.cmd.b) s
  else respond {} { s with sf := configured s.cmd.b }

/-- The SF unit after a same-tick mint (40_bitpack.md R127). -/
def sameTick (sf : SfUnit) : SfUnit := { sf with sequence := sf.sequence + 1 }

/-- The SF unit after a new-tick mint (40_bitpack.md R126). -/
def newTick (sf : SfUnit) (ts : U64) : SfUnit := { sf with sequence := 0, lastTick := ts }

/-- Step 5 of SF_CREATE: the minting state is written and the id packed with the new sequence
(40_bitpack.md R122, R128). -/
def mint (ts : U64) (sf : SfUnit) (s : State) : Result :=
  respond { w0 := packId sf ts sf.genId sf.sequence } { s with sf := sf }

/-- Steps 2 to 5 of SF_CREATE for the sampled `ticks` and its masked `ts`; comparisons are signed
(40_bitpack.md R122 to R127). -/
def createFrom (ticks ts : U64) (s : State) : Result :=
  if ticks.toInt < 0 then raise .clockMovedBackward 1 s
  else if ts.toInt < s.sf.lastTick.toInt then raise .clockMovedBackward 2 s
  else if ts = s.sf.lastTick then
    if s.sf.sequence.toNat ≥ (maskSequence s.sf).toNat then raise .sequenceOverflow 0 s
    else mint ts (sameTick s.sf) s
  else mint ts (newTick s.sf ts) s

/-- SF_CREATE: mint one id (40_bitpack.md R122); step 1 samples `tick_in` and masks it (R123). -/
def execSfCreate (s : State) : Result :=
  gated s fun s => createFrom (tickSample s) (tickSample s &&& maskTime s.sf) (tickSampled s)

/-- SF_DECODE: split an id into its fields (40_bitpack.md R130). -/
def execSfDecode (s : State) : Result :=
  gated s fun s =>
    respond { w0 := timeField s.sf s.cmd.b, w1 := generatorField s.sf s.cmd.b, w2 := sequenceField s.sf s.cmd.b } s

/-- SF_QCAP: capacity figures (40_bitpack.md R132). -/
def execSfQcap (s : State) : Result :=
  gated s fun s =>
    respond { w0 := BitVec.ofNat 64 (maxGenerators s.sf), w1 := BitVec.ofNat 64 (maxSequencePerTick s.sf),
              w2 := BitVec.ofNat 64 (maxIntervals s.sf) } s

/-- SF_QMASK: field masks (40_bitpack.md R133). -/
def execSfQmask (s : State) : Result :=
  gated s fun s =>
    respond { w0 := maskTime s.sf, w1 := (maskGenerator s.sf).setWidth 64,
              w2 := (maskSequence s.sf).setWidth 64 } s

/-- SF_QLAYOUT: stored fields, total and shifts (40_bitpack.md R134, 30_encoding.md R90). -/
def execSfQlayout (s : State) : Result :=
  gated s fun s =>
    respond { w0 := packWidths s.sf.tsBits.toNat s.sf.genBits.toNat s.sf.seqBits.toNat (totalBits s.sf),
              w1 := s.sf.genId.setWidth 64, w2 := packShifts (shiftTime s.sf) (shiftGenerator s.sf) } s

/-- SF_GETSTATE: read the minting state; not gated (40_bitpack.md R136). -/
def execSfGetstate (s : State) : Result :=
  respond { w0 := s.sf.lastTick, w1 := s.sf.sequence.setWidth 64, w2 := bitWord s.sf.cfgValid } s

/-- The mask of violated SF_SETSTATE range checks (40_bitpack.md R137). -/
def setstateViolations (sf : SfUnit) (lt sq : U64) : Byte :=
  checkBit (decide (lt.toInt < -1 ∨ lt.toInt > (maskTime sf).toInt)) 0x01 |||
  checkBit (decide (sq.toNat > (maskSequence sf).toNat)) 0x02

/-- SF_SETSTATE: force the minting state, both registers or neither (40_bitpack.md R137). -/
def execSfSetstate (s : State) : Result :=
  gated s fun s =>
    if setstateViolations s.sf s.cmd.b s.cmd.c ≠ 0 then
      raise .invalidArgument (setstateViolations s.sf s.cmd.b s.cmd.c) s
    else respond {} { s with sf := { s.sf with lastTick := s.cmd.b, sequence := s.cmd.c.setWidth 31 } }

end Sys2Proof.Machine
end

