-- ==== Sys2Proof/Machine/Dispatch.lean ====
section
/-! DEFINITION. One arm per command, each a direct call of its meaning (30_encoding.md R82). -/

namespace Sys2Proof.Machine

def exec (i : Instr) (s : State) : Host.Outcome State Fault Refusal :=
  match i with
  | .nop => Sys2Proof.Machine.execNop s
  | .sfConfig => Sys2Proof.Machine.execSfConfig s
  | .sfCreate => Sys2Proof.Machine.execSfCreate s
  | .sfDecode => Sys2Proof.Machine.execSfDecode s
  | .sfQcap => Sys2Proof.Machine.execSfQcap s
  | .sfQmask => Sys2Proof.Machine.execSfQmask s
  | .sfQlayout => Sys2Proof.Machine.execSfQlayout s
  | .sfGetstate => Sys2Proof.Machine.execSfGetstate s
  | .sfSetstate => Sys2Proof.Machine.execSfSetstate s
  | .mcNext => Sys2Proof.Machine.execMcNext s
  | .mcGetstate => Sys2Proof.Machine.execMcGetstate s
  | .mcSetstate => Sys2Proof.Machine.execMcSetstate s
  | .b32Enc len => Sys2Proof.Machine.execB32Enc len s
  | .b32Dec len => Sys2Proof.Machine.execB32Dec len s

end Sys2Proof.Machine
end

