-- ==== Sys2Proof/Machine/Run.lean ====
section
/-! DEFINITION. One command from presentation to response: decoded, executed and answered as one atomic step
(20_memory.md R62, R63). -/

namespace Sys2Proof.Machine

/-- The presented command is decoded and executed; an illegal word raises IllegalCommand (30_encoding.md R91, R92). -/
def execPresented (s : State) : Host.Outcome State Fault Refusal :=
  match decode s.cmd.word with
  | some i => exec i s
  | none => illegalCommand s

/-- The response of a command that has ended goes to its host (10_state.md R39). -/
def answer (h : Nat) : Host.Outcome State Fault Refusal → Host.Outcome State Fault Refusal
  | .next t => .next (deliver h t)
  | .fault f => .fault f
  | .refused r => .refused r

/-- Host `h`'s oldest command, from presentation to response, as one step (20_memory.md R62, R63). -/
def runCommand (h : Nat) (s : State) : Host.Outcome State Fault Refusal :=
  match headRequest h s with
  | some r => answer h (execPresented (present r (takeFrom h s)))
  | none => .next s

end Sys2Proof.Machine
end

