-- ==== Sys2Proof/Machine/Step.lean ====
section
/-! DEFINITION. One step: the next event of the total order of commands and resets (20_memory.md R62). A command is
taken from its host, presented, decoded, executed and answered as one atomic step (R63). -/

namespace Sys2Proof.Machine

/-- One step of the machine. Nothing presented: nothing happens (log entry 12). A command that an asserted reset
discards leaves its queue with no response (70_reset_and_hazards.md R271; log entry 8). -/
def step (s : State) : Host.Outcome State Fault Refusal :=
  match nextEvent s with
  | .idle => .next s
  | .reset => .next (resetState s)
  | .command h => runCommand h s
  | .discard h => .next (takeFrom h s)

/-- `s` with the command word `w` as the one command waiting, issued by the first host with the operands and port
values that stand at the interface: the next step presents and executes it (log entry 6). -/
def State.withFetchWord (s : State) (nbits w : Nat) : State :=
  { s with
    hosts := onlyRequest ⟨{ s.cmd with word := tableWord nbits w }, s.ports⟩ s.hosts
    resetIn := false }

end Sys2Proof.Machine
end

