-- ==== Sys2Proof/Machine/Pseudo.lean ====
section
/-! DEFINITION. What a host presents for each line of assembler text, and the pseudo-commands
(30_encoding.md R93, R94). The text itself is notation and is not modelled. -/

namespace Sys2Proof.Machine

/-- The command record of a command with the operands its line names; operands it does not name are 0
(30_encoding.md R93). -/
def commandOf (i : Instr) (a : List Byte) (b c : U64) : Command := ⟨encode i, lanesOf a, b, c⟩

/-- `SF.CONFIG ts, gen, seq, id`: `B = ts | gen<<8 | seq<<16 | id<<32` (30_encoding.md R93). -/
def sfConfigCommand (ts gen seq : Byte) (gid : BitVec 32) : Command :=
  commandOf .sfConfig [] (configOperand ts gen seq 0 gid) 0

/-- `MC.SETSTATE lastMillis, primed, [r0..r9]` (30_encoding.md R93). -/
def mcSetstateCommand (lastMillis : U64) (primed : Bool) (r : List Byte) : Command :=
  commandOf .mcSetstate r lastMillis (bitWord primed)

/-- `B32.ENC6 [b0..b5]` (30_encoding.md R94). -/
def b32Enc6Command (b : List Byte) : Command := commandOf (.b32Enc 6) b 0 0

/-- `B32.ENC10 [b0..b9]` (30_encoding.md R94). -/
def b32Enc10Command (b : List Byte) : Command := commandOf (.b32Enc 10) b 0 0

/-- `B32.DEC10 "c0..c9"` (30_encoding.md R94). -/
def b32Dec10Command (c : List Byte) : Command := commandOf (.b32Dec 10) c 0 0

/-- `B32.DEC16 "c0..c15"` (30_encoding.md R94). -/
def b32Dec16Command (c : List Byte) : Command := commandOf (.b32Dec 16) c 0 0

/-- `ULID.ENC [u0..u15]`: two commands (30_encoding.md R94). -/
def ulidEncCommands (u : List Byte) : List Command := [b32Enc6Command (u.take 6), b32Enc10Command (u.drop 6)]

/-- The 26 characters of a ULID from the responses of `ULID.ENC`'s two commands
(30_encoding.md R94, 42_base32.md R205). -/
def ulidText (first second : Response) : List Byte := laneList first.payload.q 10 ++ laneList second.payload.q 16

/-- `ULID.DEC "text"` of the 26 characters left when the host has stripped separators: two commands
(30_encoding.md R94). -/
def ulidDecCommands (text : List Byte) : List Command :=
  [b32Dec10Command (text.take 10), b32Dec16Command (text.drop 10)]

/-- The 16 bytes of a ULID from the responses of `ULID.DEC`'s two commands (30_encoding.md R94). -/
def ulidBytes (first second : Response) : List Byte := laneList first.payload.q 6 ++ laneList second.payload.q 10

/-- `SF.RESETGEN` = `SF.SETSTATE -1, 0` (30_encoding.md R94). -/
def sfResetgenCommand : Command := commandOf .sfSetstate [] 0xFFFFFFFFFFFFFFFF#64 0

end Sys2Proof.Machine
end

