-- ==== Sys2Proof/Safety.lean ====
section
/-! DEFINITION. What claims are stated in: the state a command ends in, the invariants of the registers
(10_state.md R28, R32), and runs of commands in any order the hosts' interleaving allows (20_memory.md R62). -/

namespace Sys2Proof.Machine

/-- `s` after a command that succeeded with payload `p` and changed nothing else: ERR = 0, INFO = 0, LAST_ERR and
LAST_INFO 0, ERR_SEEN as it was (60_exceptions.md R234). -/
def okState (s : State) (p : Payload) : State :=
  { s with status := ⟨0, 0, s.status.errSeen⟩, resp := ⟨p, 0, 0⟩ }

/-- `s` after a command that failed with error `code` and `info`: zero payload, LAST_ERR, LAST_INFO and ERR_SEEN
written, nothing else changed (60_exceptions.md R234). -/
def errState (s : State) (code : BitVec 4) (info : Byte) : State :=
  { s with status := ⟨code, info, true⟩, resp := ⟨⟨zeroLanes, 0, 0, 0⟩, code, info⟩ }

/-- How every command ends (60_exceptions.md R230, R234): a success with ERR and INFO 0, or an error 1 to 8 with a zero
payload and no unit register changed; the status registers record it either way. -/
def EndsCleanly (s t : State) : Prop :=
  (t.resp.err = 0 ∧ t.resp.info = 0 ∧ t.status = ⟨0, 0, s.status.errSeen⟩) ∨
  (1 ≤ t.resp.err.toNat ∧ t.resp.err.toNat ≤ 8 ∧ t.resp.payload = ⟨zeroLanes, 0, 0, 0⟩ ∧
    t.sf = s.sf ∧ t.mc = s.mc ∧ t.status = ⟨t.resp.err, t.resp.info, true⟩)

/-- The layout invariant (10_state.md R28). `SF_GEN_BITS ≤ 31` and `SF_SEQ_BITS ≤ 31` are in the registers' widths. -/
abbrev LayoutInv (sf : SfUnit) : Prop :=
  sf.cfgValid = true →
    sf.tsBits.toNat + sf.genBits.toNat + sf.seqBits.toNat = 63 ∧ sf.genId.toNat < 2 ^ sf.genBits.toNat

/-- The minting-state invariant (10_state.md R32). -/
abbrev MintingInv (sf : SfUnit) : Prop :=
  (sf.cfgValid = true →
    -1 ≤ sf.lastTick.toInt ∧ sf.lastTick.toInt ≤ 2 ^ sf.tsBits.toNat - 1 ∧
      sf.sequence.toNat ≤ 2 ^ sf.seqBits.toNat - 1) ∧
  (sf.cfgValid = false → sf.lastTick.toInt = -1 ∧ sf.sequence = 0)

/-- The status registers hold a code that exists, are those of the last response, and an error recorded is an error
seen (10_state.md R37, 60_exceptions.md R230, R234). -/
abbrev StatusInv (s : State) : Prop :=
  s.status.lastErr.toNat ≤ 8 ∧ s.status.lastErr = s.resp.err ∧ s.status.lastInfo = s.resp.info ∧
    (s.status.lastErr ≠ 0 → s.status.errSeen = true)

/-- The invariant of the machine: layout, minting state, status, and at least one host (00_scope.md R6). -/
abbrev Inv (s : State) : Prop := LayoutInv s.sf ∧ MintingInv s.sf ∧ StatusInv s ∧ s.hosts ≠ []

/-- `t` is reached from `s` when the requests are executed in order, none of which is, together with the state it
leaves, one of `bad`. The list is any interleaving of the hosts' commands (20_memory.md R62). -/
def RunAvoiding (bad : Request → State → Prop) : List Request → State → State → Prop
  | [], s, t => t = s
  | r :: rs, s, t => ∃ u, execPresented (present r s) = .next u ∧ ¬ bad r u ∧ RunAvoiding bad rs u t

/-- What can reach the IDCB from outside between two steps (00_scope.md R8, 70_reset_and_hazards.md R270). -/
inductive Arrival where
  /-- A host issues a command. -/
  | command (host : Nat) (request : Request)
  /-- The reset input is asserted. -/
  | reset
  deriving DecidableEq, Repr

/-- The state once an arrival has reached the IDCB. -/
def arrive (s : State) : Arrival → State
  | .command h r => issue h r s
  | .reset => assertReset s

/-- Whatever arrives before each step, as listed, the next event is, at one of these steps, that a command of host `h`
is taken, or a reset. -/
def ServedWithin (h : Nat) : List (List Arrival) → State → Prop
  | [], _ => False
  | now :: later, s =>
    let u := now.foldl arrive s
    nextEvent u = .command h ∨ nextEvent u = .discard h ∨ nextEvent u = .reset ∨
      ∃ t, step u = .next t ∧ ServedWithin h later t

/-- A successful SF_CONFIG or SF_SETSTATE: what restarts or forces the minting state (40_bitpack.md R129). -/
def restartsMinting (r : Request) (u : State) : Prop :=
  u.resp.err = 0 ∧ (decode r.command.word = some .sfConfig ∨ decode r.command.word = some .sfSetstate)

/-- A successful MC_SETSTATE (41_monotonic.md R177). -/
def forcesCounter (r : Request) (u : State) : Prop :=
  u.resp.err = 0 ∧ decode r.command.word = some .mcSetstate

/-- A successful MC_NEXT or MC_SETSTATE: what writes the counter (41_monotonic.md R177). -/
def writesCounter (r : Request) (u : State) : Prop :=
  u.resp.err = 0 ∧ (decode r.command.word = some .mcNext ∨ decode r.command.word = some .mcSetstate)

/-- The ten randomness bytes of an MC_NEXT response as an integer (41_monotonic.md R177). -/
def randomnessOf (resp : Response) : Nat := be (laneList resp.payload.q 10)

/-- The 16-byte ULID a host builds from an MC_NEXT response: `BYTES_6(W1) ‖ Q[0..9]` (70_reset_and_hazards.md R280). -/
def ulidOf (resp : Response) : List Byte := bytes 6 resp.payload.w1.toNat ++ laneList resp.payload.q 10

/-- Two states present a command with the same inputs: the operand fields and lanes its rule names (30_encoding.md R83,
R84, R86 to R89) and the ports it may sample (10_state.md R40). Everything else may differ. -/
def SameInputs (i : Instr) (s s' : State) : Prop :=
  match i with
  | .sfConfig => s.cmd.b = s'.cmd.b
  | .sfCreate => s.ports.tickIn = s'.ports.tickIn
  | .sfDecode => s.cmd.b = s'.cmd.b
  | .sfSetstate => s.cmd.b = s'.cmd.b ∧ s.cmd.c = s'.cmd.c
  | .mcNext => s.ports.millisIn = s'.ports.millisIn ∧ s.ports.randIn = s'.ports.randIn
  | .mcSetstate => laneList s.cmd.a 10 = laneList s'.cmd.a 10 ∧ s.cmd.b = s'.cmd.b ∧ s.cmd.c = s'.cmd.c
  | .b32Enc n => laneList s.cmd.a n = laneList s'.cmd.a n
  | .b32Dec n => laneList s.cmd.a n = laneList s'.cmd.a n
  | .nop | .sfQcap | .sfQmask | .sfQlayout | .sfGetstate | .mcGetstate => True

/-- The commands whose only effect is their response and the status registers (20_memory.md R66). -/
def readOnly : Instr → Bool
  | .sfConfig | .sfCreate | .sfSetstate | .mcNext | .mcSetstate => false
  | .nop | .sfDecode | .sfQcap | .sfQmask | .sfQlayout | .sfGetstate | .mcGetstate => true
  | .b32Enc _ | .b32Dec _ => true

/-- The SF commands that first test SF_CFG_VALID (40_bitpack.md R120). -/
def needsLayout : Instr → Bool
  | .sfCreate | .sfDecode | .sfQcap | .sfQmask | .sfQlayout | .sfSetstate => true
  | .nop | .sfConfig | .sfGetstate | .mcNext | .mcGetstate | .mcSetstate => false
  | .b32Enc _ | .b32Dec _ => false

/-- Adding one to a byte sequence from its last byte upward, each byte that rolls over from 0xFF to 0x00 carrying into
the byte of next lower index: the carry out of byte 0 and the bytes (41_monotonic.md R173). -/
def bumpBytes : List Byte → Bool × List Byte
  | [] => (true, [])
  | x :: xs =>
    match bumpBytes xs with
    | (true, ys) => (decide (x = 0xFF#8), (x + 1) :: ys)
    | (false, ys) => (false, x :: ys)

end Sys2Proof.Machine
end

