-- ==== Sys2Proof/Certificates/Slice0/Obligations.lean ====
section
/-! DEFINITION. The statements for the provers, from the numbered rules of spec/. -/

open Sys2Proof Sys2Proof.Machine

/-! ### The command word -/

/-- 30_encoding.md R80, R82, R92: no field of a word is dropped by encoding and decoding. -/
def Obligations.DecodeOfEncodeIsTheCommand : Prop :=
  ∀ i : Instr, wellFormed i = true → decode (encode i) = some i

/-- 30_encoding.md R92: every legal word is the one word of the command it decodes to. -/
def Obligations.EncodeOfDecodeIsTheWord : Prop :=
  ∀ (w : CmdWord) (i : Instr), decode w = some i → wellFormed i = true ∧ encode i = w

/-- 30_encoding.md R92: the match and mask of each command, as a table of words. -/
def Obligations.DecodeAgreesWithMatchAndMask : Prop :=
  (∀ w : CmdWord,
    (decode w = some .nop ↔ w = 0x01#32) ∧ (decode w = some .sfConfig ↔ w = 0x10#32) ∧
    (decode w = some .sfCreate ↔ w = 0x11#32) ∧ (decode w = some .sfDecode ↔ w = 0x12#32) ∧
    (decode w = some .sfQcap ↔ w = 0x13#32) ∧ (decode w = some .sfQmask ↔ w = 0x14#32) ∧
    (decode w = some .sfQlayout ↔ w = 0x15#32) ∧ (decode w = some .sfGetstate ↔ w = 0x16#32) ∧
    (decode w = some .sfSetstate ↔ w = 0x17#32) ∧ (decode w = some .mcNext ↔ w = 0x20#32) ∧
    (decode w = some .mcGetstate ↔ w = 0x21#32) ∧ (decode w = some .mcSetstate ↔ w = 0x22#32)) ∧
  (∀ (w : CmdWord) (n : Nat),
    (decode w = some (.b32Enc n) ↔ w &&& 0xFFFFE0FF#32 = 0x30#32 ∧ n = w.toNat / 256 % 32) ∧
    (decode w = some (.b32Dec n) ↔ w &&& 0xFFFFE0FF#32 = 0x31#32 ∧ n = w.toNat / 256 % 32))

/-- 30_encoding.md R91, 43_control.md R221, 60_exceptions.md R232: which words are illegal, and what an illegal word
does; the one hint encoding, NOP, executes as a no-op. -/
def Obligations.IllegalWordsAreThoseOfR91AndRaiseIllegalCommand : Prop :=
  (∀ w : CmdWord, decode w = none ↔
    w.toNat / 2 ^ 13 ≠ 0 ∨
    w.toNat % 256 ∉ [0x01, 0x10, 0x11, 0x12, 0x13, 0x14, 0x15, 0x16, 0x17, 0x20, 0x21, 0x22, 0x30, 0x31] ∨
    (w.toNat / 256 % 32 ≠ 0 ∧ w.toNat % 256 ≠ 0x30 ∧ w.toNat % 256 ≠ 0x31)) ∧
  (∀ s : State, decode s.cmd.word = none →
    execPresented s = .next (errState s 8 (BitVec.ofNat 8 s.cmd.word.toNat))) ∧
  (∀ s : State, s.cmd.word = 0x01#32 → execPresented s = .next (okState s ⟨zeroLanes, 0, 0, 0⟩))

/-- 30_encoding.md R82, R93: words written out from the encoding tables decode to the commands they stand for. -/
def Obligations.WordsOfTheTableDecodeToTheirCommands : Prop :=
  decode 0x00000001#32 = some .nop ∧ decode 0x00000010#32 = some .sfConfig ∧
  decode 0x00000017#32 = some .sfSetstate ∧ decode 0x00000020#32 = some .mcNext ∧
  decode 0x00000630#32 = some (.b32Enc 6) ∧ decode 0x00001031#32 = some (.b32Dec 16) ∧
  decode 0x00000000#32 = none ∧ decode 0x00000610#32 = none ∧ decode 0x00002011#32 = none

/-! ### The step, the hosts and reset -/

/-- 20_memory.md R62, R63: a step takes the oldest command of the granted host, presents its record and ports with no
port sampled yet, executes the command its word decodes to (or raises IllegalCommand), and delivers the response. -/
def Obligations.StepExecutesThePresentedCommand : Prop :=
  ∀ (s t : State) (h : Nat) (r : Request), nextEvent s = .command h → headRequest h s = some r →
    let u : State :=
      { s with
        cmd := r.command
        ports := r.ports
        reads := ⟨0, 0, 0⟩
        choices := s.choices + 1
        hosts := s.hosts.modify h fun p => { p with issued := p.issued.tail, servedAt := s.choices + 1 } }
    (∀ i, decode r.command.word = some i → exec i u = .next t →
      step s = .next { t with hosts := t.hosts.modify h fun p => { p with answers := p.answers ++ [t.resp] } }) ∧
    (decode r.command.word = none → illegalCommand u = .next t →
      step s = .next { t with hosts := t.hosts.modify h fun p => { p with answers := p.answers ++ [t.resp] } })

/-- 20_memory.md R70, 60_exceptions.md R234: the machine never stops; every step in every state goes on. -/
def Obligations.EveryStepGoesOn : Prop := ∀ s : State, ∃ t : State, step s = .next t

/-- Log entry 12 (the model's reading of 10_state.md R22): with no reset asserted and no command waiting, a step
changes nothing. -/
def Obligations.IdleStepChangesNothing : Prop :=
  ∀ s : State, s.resetIn = false → (∀ p ∈ s.hosts, p.issued = []) → step s = .next s

/-- 20_memory.md R62, 70_reset_and_hazards.md R271, log entries 7 and 8: what the next event can be. -/
def Obligations.NextEventIsAWaitingCommandOrAnAssertedReset : Prop :=
  ∀ s : State,
    match nextEvent s with
    | .idle => s.resetIn = false ∧ ∀ p ∈ s.hosts, p.issued = []
    | .reset => s.resetIn = true
    | .command h => ∃ p : HostPort, s.hosts[h]? = some p ∧ p.issued ≠ []
    | .discard h => s.resetIn = true ∧ ∃ p : HostPort, s.hosts[h]? = some p ∧ p.issued ≠ []

/-- 10_state.md R39, 20_memory.md R62, R73, 60_exceptions.md R234: a command leaves the head of its host's queue and
is answered by exactly one response, delivered to that host and to no other. -/
def Obligations.OneResponsePerCommandToItsHostOnly : Prop :=
  ∀ (s t : State) (h : Nat), nextEvent s = .command h → step s = .next t →
    (∃ (p : HostPort) (r : Request) (rest : List Request),
      s.hosts[h]? = some p ∧ p.issued = r :: rest ∧ t.cmd = r.command ∧
      t.hosts[h]? = some ⟨rest, p.answers ++ [t.resp], s.choices + 1⟩) ∧
    (∀ j : Nat, j ≠ h → t.hosts[j]? = s.hosts[j]?)

/-- 20_memory.md R70 (weak fairness of arbitration; its form is log entry 7): a host with a command waiting has it taken,
within a number of steps that does not depend on what arrives meanwhile, unless a reset comes first. -/
def Obligations.WaitingHostIsServedOrReset : Prop :=
  ∀ (s : State) (h : Nat) (p : HostPort), s.hosts[h]? = some p → p.issued ≠ [] →
    ∃ n : Nat, ∀ arrivals : List (List Arrival), arrivals.length = n → ServedWithin h arrivals s

/-- 10_state.md R44: the value of every register after reset, and the contents of the two ROMs. -/
def Obligations.ResetValuesAreThoseOfR44 : Prop :=
  State.reset.sf.cfgValid = false ∧ State.reset.sf.tsBits = 0 ∧ State.reset.sf.genBits = 0 ∧
  State.reset.sf.seqBits = 0 ∧ State.reset.sf.genId = 0 ∧ State.reset.sf.lastTick.toInt = -1 ∧
  State.reset.sf.sequence = 0 ∧ State.reset.mc.primed = false ∧ State.reset.mc.lastMillis = 0 ∧
  State.reset.mc.lastRand = 0 ∧ State.reset.status.lastErr = 0 ∧ State.reset.status.lastInfo = 0 ∧
  State.reset.status.errSeen = false ∧
  alphabet.map (fun c => Char.ofNat c.toNat) = "0123456789ABCDEFGHJKMNPQRSTVWXYZ".toList ∧
  (∀ c : Byte, decodeAt c = match alphabet.findIdx? (· = c) with
    | some v => BitVec.ofNat 8 v
    | none => 0xFF#8)

/-- 70_reset_and_hazards.md R270: a reset sets every register in one step. That it releases the reset input and discards
the commands still waiting with no response is log entry 8; that it leaves the build parameters is log entry 1. -/
def Obligations.ResetSetsEveryRegisterInOneStep : Prop :=
  ∀ s : State, nextEvent s = .reset →
    ∃ t : State, step s = .next t ∧
      t.sf = ⟨false, 0, 0, 0, 0, BitVec.ofInt 64 (-1), 0⟩ ∧ t.mc = ⟨false, 0, 0⟩ ∧ t.status = ⟨0, 0, false⟩ ∧
      t.resetIn = false ∧ t.build = s.build ∧ t.hosts = s.hosts.map (fun p => ⟨[], p.answers, p.servedAt⟩)

/-- 70_reset_and_hazards.md R271, log entry 8: an asserted reset is the next event, or one more waiting command is
executed before it, or is discarded with no response and no other effect; the reset stays asserted after these. -/
def Obligations.AssertedResetHappensNowOrAfterAWaitingCommand : Prop :=
  ∀ s : State, s.resetIn = true →
    nextEvent s = .reset ∨
    ∃ (h : Nat) (p : HostPort) (t : State),
      s.hosts[h]? = some p ∧ p.issued ≠ [] ∧ step s = .next t ∧ t.resetIn = true ∧
      (nextEvent s = .command h ∨
        (nextEvent s = .discard h ∧ t.sf = s.sf ∧ t.mc = s.mc ∧ t.status = s.status ∧
          t.hosts[h]? = some ⟨p.issued.tail, p.answers, s.choices + 1⟩ ∧ ∀ j : Nat, j ≠ h → t.hosts[j]? = s.hosts[j]?))

/-- 70_reset_and_hazards.md R272: after a reset the commands that need a layout, and only those, are turned away with
NotConfigured, and MC_NEXT draws fresh. -/
def Obligations.AfterResetOnlyTheLayoutCommandsAreTurnedAway : Prop :=
  ∀ (s t : State) (r : Request), nextEvent s = .reset → step s = .next t →
    (∀ (i : Instr) (u : State), exec i (present r t) = .next u → (u.resp.err = 7 ↔ needsLayout i = true)) ∧
    (∃ u : State, exec .mcNext (present r t) = .next u ∧ u.resp.err = 0 ∧ u.mc.lastMillis = r.ports.millisIn ∧
      u.mc.lastRand.toNat = be r.ports.randIn.toList % 2 ^ (80 - s.build.headroom.val))

/-- 00_scope.md R6, log entries 1 and 6: no step changes the build parameters or the number of hosts. -/
def Obligations.BuildParametersNeverChange : Prop :=
  ∀ s t : State, step s = .next t → t.build = s.build ∧ t.hosts.length = s.hosts.length

/-- 10_state.md R28, R32, R37: the layout, minting-state and status invariants are kept by every step. -/
def Obligations.EveryStepKeepsTheInvariant : Prop :=
  ∀ s t : State, Inv s → step s = .next t → Inv t

/-- 10_state.md R28, R32, R44: the invariant holds after reset. -/
def Obligations.InvariantHoldsAfterReset : Prop := Inv State.reset

/-! ### Every command -/

/-- 60_exceptions.md R230, R234: every command ends with one response, a success or an error that changes no unit
register; ERR is never 9 to 15. -/
def Obligations.EveryCommandEndsWithOneCleanResponse : Prop :=
  (∀ (i : Instr) (s : State), ∃ t : State, exec i s = .next t ∧ EndsCleanly s t) ∧
  (∀ s : State, ∃ t : State, execPresented s = .next t ∧ EndsCleanly s t)

/-- 60_exceptions.md R237: ERR_SEEN stays 1 until reset. -/
def Obligations.ErrSeenStaysUntilReset : Prop :=
  ∀ s t : State, step s = .next t → nextEvent s ≠ .reset → s.status.errSeen = true → t.status.errSeen = true

/-- 10_state.md R21, R38 to R40: executing a command changes neither its own record, nor the ports, nor the hosts, nor
the reset input, nor the build. -/
def Obligations.CommandLeavesRecordPortsHostsAndBuild : Prop :=
  ∀ (i : Instr) (s t : State), exec i s = .next t →
    t.cmd = s.cmd ∧ t.ports = s.ports ∧ t.hosts = s.hosts ∧ t.resetIn = s.resetIn ∧ t.choices = s.choices ∧
      t.build = s.build

/-- 10_state.md R40, 40_bitpack.md R120, 41_monotonic.md R170: which command samples which port, and when. -/
def Obligations.PortsAreSampledOnceByTheCommandThatNamesThem : Prop :=
  ∀ (i : Instr) (s t : State), exec i s = .next t →
    t.reads.tick = s.reads.tick + (if i = .sfCreate ∧ s.sf.cfgValid = true then 1 else 0) ∧
    t.reads.millis = s.reads.millis + (if i = .mcNext then 1 else 0) ∧
    t.reads.rand = s.reads.rand +
      (if i = .mcNext ∧ (s.mc.primed = false ∨ s.mc.lastMillis.toInt < s.ports.millisIn.toInt) then 1 else 0)

/-- 20_memory.md R66: the read-only commands write no unit state, and repeating one gives the same response. -/
def Obligations.ReadOnlyCommandsAreRepeatable : Prop :=
  ∀ (i : Instr) (s t : State), readOnly i = true → exec i s = .next t →
    t.sf = s.sf ∧ t.mc = s.mc ∧ ∃ u : State, exec i t = .next u ∧ u.resp = t.resp ∧ u.sf = t.sf ∧ u.mc = t.mc

/-- 10_state.md R38, R40, 30_encoding.md R83: a command reads only the operand fields, lanes and ports its rule
names, the unit registers and the build; everything else is ignored and has no effect. -/
def Obligations.OperandsACommandDoesNotNameAreIgnored : Prop :=
  ∀ (i : Instr) (s s' t t' : State), SameInputs i s s' → s'.sf = s.sf → s'.mc = s.mc → s'.build = s.build →
    s'.status = s.status → exec i s = .next t → exec i s' = .next t' →
    t'.resp = t.resp ∧ t'.sf = t.sf ∧ t'.mc = t.mc ∧ t'.status = t.status

/-- 20_memory.md R64: no command writes another unit's state, or lets it show in its response or in its own unit. -/
def Obligations.UnitsAreIndependent : Prop :=
  ∀ (i : Instr) (s t : State), exec i s = .next t →
    (unitOf i ≠ .sf → t.sf = s.sf ∧
      ∀ (sf : SfUnit), ∃ u : State, exec i { s with sf := sf } = .next u ∧ u.resp = t.resp ∧ u.mc = t.mc) ∧
    (unitOf i ≠ .mc → t.mc = s.mc ∧
      ∀ (mc : McUnit), ∃ u : State, exec i { s with mc := mc } = .next u ∧ u.resp = t.resp ∧ u.sf = t.sf)

/-- 20_memory.md R64: two commands on different units give the same responses and the same unit state in either
order. -/
def Obligations.CommandsOnDifferentUnitsCommute : Prop :=
  ∀ (i j : Instr) (ri rj : Request) (s a b c d : State),
    decode ri.command.word = some i → decode rj.command.word = some j → unitOf i ≠ unitOf j →
    execPresented (present ri s) = .next a → execPresented (present rj a) = .next b →
    execPresented (present rj s) = .next c → execPresented (present ri c) = .next d →
    a.resp = d.resp ∧ b.resp = c.resp ∧ b.sf = d.sf ∧ b.mc = d.mc

/-- 43_control.md R220: NOP answers OK and writes no unit state; ERR_SEEN stays as it was. -/
def Obligations.NopOnlyRecordsSuccess : Prop :=
  decode 0x00000001#32 = some .nop ∧
  ∀ s : State, exec .nop s = .next (okState s ⟨zeroLanes, 0, 0, 0⟩)

/-! ### The SF unit -/

/-- 40_bitpack.md R120, 60_exceptions.md R231: the gated commands while SF_CFG_VALID is 0; no port is sampled. -/
def Obligations.GatedCommandsRaiseNotConfigured : Prop :=
  ∀ (i : Instr) (s : State), needsLayout i = true → s.sf.cfgValid = false → exec i s = .next (errState s 7 0)

/-- 40_bitpack.md R121, 30_encoding.md R85: SF_CONFIG loads a whole layout with a fresh minting state, or reports every
violated check and changes nothing. -/
def Obligations.SfConfigLoadsALayoutOrReportsEveryViolation : Prop :=
  decode 0x00000010#32 = some .sfConfig ∧
  ∀ s : State,
    let ts := s.cmd.b.toNat % 256
    let gen := s.cmd.b.toNat / 2 ^ 8 % 256
    let seq := s.cmd.b.toNat / 2 ^ 16 % 256
    let crsv := s.cmd.b.toNat / 2 ^ 24 % 256
    let gid := s.cmd.b.toNat / 2 ^ 32
    let v := (if ts + gen + seq ≠ 63 then 1 else 0) + (if gen > 31 then 2 else 0) + (if seq > 31 then 4 else 0) +
      (if gid ≥ 2 ^ gen then 8 else 0) + (if crsv ≠ 0 then 16 else 0)
    (ts + gen + seq = 63 → gen ≤ 31 → seq ≤ 31 → gid < 2 ^ gen → crsv = 0 →
      exec .sfConfig s = .next (okState
        { s with sf := ⟨true, BitVec.ofNat 6 ts, BitVec.ofNat 5 gen, BitVec.ofNat 5 seq, BitVec.ofNat 31 gid,
                        BitVec.ofInt 64 (-1), 0⟩ } ⟨zeroLanes, 0, 0, 0⟩)) ∧
    (v ≠ 0 → exec .sfConfig s = .next (errState s 1 (BitVec.ofNat 8 v)))

/-- 40_bitpack.md R122 to R127: SF_CREATE step by step; the comparisons are of signed integers, the id is packed from the
new sequence, and no error writes the minting state. -/
def Obligations.SfCreateMintsOrFailsInStepOrder : Prop :=
  decode 0x00000011#32 = some .sfCreate ∧
  (∀ s : State, s.sf.cfgValid = false → exec .sfCreate s = .next (errState s 7 0)) ∧
  ∀ s : State, s.sf.cfgValid = true →
    let ticks := s.ports.tickIn.toInt
    let ts := s.ports.tickIn.toNat % 2 ^ s.sf.tsBits.toNat
    let last := s.sf.lastTick.toInt
    let sampled : State := { s with reads := ⟨s.reads.tick + 1, s.reads.millis, s.reads.rand⟩ }
    let pack := fun (sq : BitVec 31) =>
      (BitVec.ofNat 64 ts <<< (s.sf.genBits.toNat + s.sf.seqBits.toNat)) |||
        (s.sf.genId.setWidth 64 <<< s.sf.seqBits.toNat) ||| sq.setWidth 64
    (ticks < 0 → exec .sfCreate s = .next (errState sampled 2 1)) ∧
    (0 ≤ ticks → ts < last → exec .sfCreate s = .next (errState sampled 2 2)) ∧
    (0 ≤ ticks → ts = last → 2 ^ s.sf.seqBits.toNat - 1 ≤ s.sf.sequence.toNat →
      exec .sfCreate s = .next (errState sampled 3 0)) ∧
    (0 ≤ ticks → ts = last → s.sf.sequence.toNat < 2 ^ s.sf.seqBits.toNat - 1 →
      exec .sfCreate s = .next (okState { sampled with sf := { s.sf with sequence := s.sf.sequence + 1 } }
        ⟨zeroLanes, pack (s.sf.sequence + 1), 0, 0⟩)) ∧
    (0 ≤ ticks → last < ts →
      exec .sfCreate s = .next (okState { sampled with sf := { s.sf with sequence := 0, lastTick := BitVec.ofNat 64 ts } }
        ⟨zeroLanes, pack 0, 0, 0⟩))

/-- 40_bitpack.md R128: under a legal layout the three fields of an id do not overlap, most significant first, and bit 63
is 0. -/
def Obligations.PackedFieldsDoNotOverlap : Prop :=
  ∀ (sf : SfUnit) (ts : U64) (gid sq : BitVec 31),
    sf.tsBits.toNat + sf.genBits.toNat + sf.seqBits.toNat = 63 → ts.toNat < 2 ^ sf.tsBits.toNat →
    gid.toNat < 2 ^ sf.genBits.toNat → sq.toNat < 2 ^ sf.seqBits.toNat →
    packId sf ts gid sq =
      (ts <<< (sf.genBits.toNat + sf.seqBits.toNat)) ||| (gid.setWidth 64 <<< sf.seqBits.toNat) ||| sq.setWidth 64 ∧
    (packId sf ts gid sq).toNat =
      ts.toNat * 2 ^ (sf.genBits.toNat + sf.seqBits.toNat) + gid.toNat * 2 ^ sf.seqBits.toNat + sq.toNat ∧
    (packId sf ts gid sq).toNat < 2 ^ 63

/-- 40_bitpack.md R129: between two successful SF_CREATE with no successful SF_CONFIG or SF_SETSTATE between them the later
id is greater, whatever other commands fall between them. -/
def Obligations.MintedIdsStrictlyIncrease : Prop :=
  ∀ (s t u v : State) (r r' : Request) (between : List Request), LayoutInv s.sf →
    decode r.command.word = some .sfCreate → execPresented (present r s) = .next t → t.resp.err = 0 →
    RunAvoiding restartsMinting between t u →
    decode r'.command.word = some .sfCreate → execPresented (present r' u) = .next v → v.resp.err = 0 →
    t.resp.payload.w0.toNat < v.resp.payload.w0.toNat

/-- 40_bitpack.md R131: SF_DECODE of a minted id under the same configuration returns the timestamp, the generator's own
id and the sequence that were packed. -/
def Obligations.DecodeOfAMintedIdRoundTrips : Prop :=
  ∀ s t u : State, LayoutInv s.sf → exec .sfCreate s = .next t → t.resp.err = 0 →
    u.sf.cfgValid = true → u.sf.tsBits = s.sf.tsBits → u.sf.genBits = s.sf.genBits → u.sf.seqBits = s.sf.seqBits →
    u.cmd.b = t.resp.payload.w0 →
    exec .sfDecode u = .next (okState u
      ⟨zeroLanes, BitVec.ofNat 64 (s.ports.tickIn.toNat % 2 ^ s.sf.tsBits.toNat), s.sf.genId.setWidth 64,
        t.sf.sequence.setWidth 64⟩)

/-- 40_bitpack.md R130, 30_encoding.md R86: SF_DECODE splits any 64-bit id by the layout loaded; under a layout of 63 bits
bit 63 of the id is ignored. -/
def Obligations.SfDecodeSplitsTheId : Prop :=
  decode 0x00000012#32 = some .sfDecode ∧
  (∀ s : State, s.sf.cfgValid = false → exec .sfDecode s = .next (errState s 7 0)) ∧
  (∀ s : State, s.sf.cfgValid = true →
    exec .sfDecode s = .next (okState s ⟨zeroLanes,
      BitVec.ofNat 64 (s.cmd.b.toNat / 2 ^ (s.sf.genBits.toNat + s.sf.seqBits.toNat) % 2 ^ s.sf.tsBits.toNat),
      BitVec.ofNat 64 (s.cmd.b.toNat / 2 ^ s.sf.seqBits.toNat % 2 ^ s.sf.genBits.toNat),
      BitVec.ofNat 64 (s.cmd.b.toNat % 2 ^ s.sf.seqBits.toNat)⟩)) ∧
  (∀ s s' t t' : State, s.sf.cfgValid = true → LayoutInv s.sf → s'.sf = s.sf →
    s'.cmd.b.toNat % 2 ^ 63 = s.cmd.b.toNat % 2 ^ 63 →
    exec .sfDecode s = .next t → exec .sfDecode s' = .next t' → t'.resp = t.resp)

/-- 40_bitpack.md R132, R133, R134, 30_encoding.md R90, 10_state.md R29: the layout queries. -/
def Obligations.LayoutQueriesAnswerTheDerivedValues : Prop :=
  (decode 0x00000013#32 = some .sfQcap ∧ decode 0x00000014#32 = some .sfQmask ∧
    decode 0x00000015#32 = some .sfQlayout) ∧
  (∀ s : State, s.sf.cfgValid = false → exec .sfQcap s = .next (errState s 7 0) ∧
    exec .sfQmask s = .next (errState s 7 0) ∧ exec .sfQlayout s = .next (errState s 7 0)) ∧
  ∀ s : State, s.sf.cfgValid = true →
    let t := s.sf.tsBits.toNat
    let g := s.sf.genBits.toNat
    let q := s.sf.seqBits.toNat
    exec .sfQcap s = .next (okState s ⟨zeroLanes, BitVec.ofNat 64 (2 ^ g), BitVec.ofNat 64 (2 ^ q),
      BitVec.ofNat 64 (2 ^ t)⟩) ∧
    exec .sfQmask s = .next (okState s ⟨zeroLanes, BitVec.ofNat 64 (2 ^ t - 1), BitVec.ofNat 64 (2 ^ g - 1),
      BitVec.ofNat 64 (2 ^ q - 1)⟩) ∧
    exec .sfQlayout s = .next (okState s ⟨zeroLanes,
      BitVec.ofNat 64 (t + g * 2 ^ 8 + q * 2 ^ 16 + (t + g + q) * 2 ^ 24), s.sf.genId.setWidth 64,
      BitVec.ofNat 64 (g + q + q * 2 ^ 8)⟩)

/-- 40_bitpack.md R135: the capacity law. -/
def Obligations.CapacityLaw : Prop :=
  ∀ s : State, s.sf.cfgValid = true →
    ∃ t : State, exec .sfQcap s = .next t ∧ t.resp.err = 0 ∧
      t.resp.payload.w0.toNat * t.resp.payload.w1.toNat = 2 ^ (s.sf.genBits.toNat + s.sf.seqBits.toNat)

/-- 40_bitpack.md R136: SF_GETSTATE reads the minting state and SF_CFG_VALID, in every state. -/
def Obligations.SfGetstateReadsTheMintingState : Prop :=
  decode 0x00000016#32 = some .sfGetstate ∧
  ∀ s : State, exec .sfGetstate s = .next (okState s
    ⟨zeroLanes, s.sf.lastTick, s.sf.sequence.setWidth 64, if s.sf.cfgValid = true then 1 else 0⟩)

/-- 40_bitpack.md R137: SF_SETSTATE forces both registers, or reports every violated range check and changes neither. -/
def Obligations.SfSetstateForcesThePairOrReportsEveryViolation : Prop :=
  decode 0x00000017#32 = some .sfSetstate ∧
  (∀ s : State, s.sf.cfgValid = false → exec .sfSetstate s = .next (errState s 7 0)) ∧
  ∀ s : State, s.sf.cfgValid = true →
    let lt := s.cmd.b.toInt
    let sq := s.cmd.c.toNat
    let v := (if lt < -1 ∨ lt > 2 ^ s.sf.tsBits.toNat - 1 then 1 else 0) +
      (if sq > 2 ^ s.sf.seqBits.toNat - 1 then 2 else 0)
    (-1 ≤ lt → lt ≤ 2 ^ s.sf.tsBits.toNat - 1 → sq ≤ 2 ^ s.sf.seqBits.toNat - 1 →
      exec .sfSetstate s = .next (okState
        { s with sf := { s.sf with lastTick := s.cmd.b, sequence := BitVec.ofNat 31 sq } } ⟨zeroLanes, 0, 0, 0⟩)) ∧
    (v ≠ 0 → exec .sfSetstate s = .next (errState s 4 (BitVec.ofNat 8 v)))

/-- 70_reset_and_hazards.md R277: SF_CREATE that failed with SequenceOverflow fails again within the same tick. -/
def Obligations.SequenceOverflowRepeatsWithinTheTick : Prop :=
  ∀ (s t : State) (r : Request), exec .sfCreate s = .next t → t.resp.err = 3 →
    decode r.command.word = some .sfCreate → 0 ≤ r.ports.tickIn.toInt →
    r.ports.tickIn.toNat % 2 ^ s.sf.tsBits.toNat = s.ports.tickIn.toNat % 2 ^ s.sf.tsBits.toNat →
    ∃ u : State, execPresented (present r t) = .next u ∧ u.resp.err = 3 ∧ u.sf = s.sf

/-! ### The MC unit -/

/-- 41_monotonic.md R170 to R174: MC_NEXT's fresh branch, increment branch and failure. -/
def Obligations.McNextDrawsIncrementsOrFails : Prop :=
  decode 0x00000020#32 = some .mcNext ∧
  ∀ s : State,
    let m := s.ports.millisIn
    let fresh := be s.ports.randIn.toList % 2 ^ (80 - s.build.headroom.val)
    let next := s.mc.lastRand.toNat + 1
    let sampled : State := { s with reads := ⟨s.reads.tick, s.reads.millis + 1, s.reads.rand⟩ }
    (s.mc.primed = false ∨ s.mc.lastMillis.toInt < m.toInt →
      exec .mcNext s = .next (okState
        { s with reads := ⟨s.reads.tick, s.reads.millis + 1, s.reads.rand + 1⟩
                 mc := ⟨true, m, BitVec.ofNat 80 fresh⟩ } ⟨lanesOf (bytes 10 fresh), m, m, 0⟩)) ∧
    (s.mc.primed = true → m.toInt ≤ s.mc.lastMillis.toInt → next < 2 ^ 80 →
      exec .mcNext s = .next (okState { sampled with mc := ⟨true, s.mc.lastMillis, BitVec.ofNat 80 next⟩ }
        ⟨lanesOf (bytes 10 next), m, s.mc.lastMillis, 0⟩)) ∧
    (s.mc.primed = true → m.toInt ≤ s.mc.lastMillis.toInt → next = 2 ^ 80 →
      exec .mcNext s = .next (errState sampled 6 0))

/-- 00_scope.md R10: `BE` and `BYTES_n` are inverse to each other, through the lanes of a record too. -/
def Obligations.BytesAndIntegersAreInverse : Prop :=
  (∀ n v : Nat, v < 2 ^ (8 * n) → be (bytes n v) = v) ∧
  (∀ bs : List Byte, bytes bs.length (be bs) = bs) ∧
  (∀ n v : Nat, n ≤ 16 → laneList (lanesOf (bytes n v)) n = bytes n v)

/-- 41_monotonic.md R173: MC_NEXT's increment is the carry from byte 9 upward, byte by byte; with a carry out of byte 0
it fails, else it stores and answers the bytes. -/
def Obligations.IncrementCarriesFromTheLastByteUpward : Prop :=
  ∀ s : State, s.mc.primed = true → s.ports.millisIn.toInt ≤ s.mc.lastMillis.toInt →
    let bumped := bumpBytes (bytes10 s.mc.lastRand)
    ∃ t : State, exec .mcNext s = .next t ∧
      (bumped.1 = true → t.resp.err = 6 ∧ t.mc = s.mc ∧ s.mc.lastRand + 1 = 0) ∧
      (bumped.1 = false → t.resp.err = 0 ∧ laneList t.resp.payload.q 10 = bumped.2 ∧
        bytes10 t.mc.lastRand = bumped.2 ∧ t.mc.lastRand = s.mc.lastRand + 1)

/-- 41_monotonic.md R177: a later successful MC_NEXT that takes the increment branch returns exactly one more than the
last successful MC_NEXT before it. -/
def Obligations.IncrementReturnsExactlyOneMore : Prop :=
  ∀ (s t u v : State) (r r' : Request) (between : List Request),
    decode r.command.word = some .mcNext → execPresented (present r s) = .next t → t.resp.err = 0 →
    RunAvoiding writesCounter between t u →
    decode r'.command.word = some .mcNext → r'.ports.millisIn.toInt ≤ u.mc.lastMillis.toInt →
    execPresented (present r' u) = .next v → v.resp.err = 0 →
    randomnessOf v.resp = randomnessOf t.resp + 1

/-- 41_monotonic.md R178: after a fresh draw at least `2^80 - 2^(80 - P_HEADROOM)` increments succeed. -/
def Obligations.HeadroomBudgetOfAFreshDraw : Prop :=
  ∀ (s t : State) (rs : List Request),
    s.mc.primed = false ∨ s.mc.lastMillis.toInt < s.ports.millisIn.toInt → exec .mcNext s = .next t →
    (∀ r ∈ rs, decode r.command.word = some .mcNext ∧ r.ports.millisIn.toInt ≤ t.mc.lastMillis.toInt) →
    rs.length ≤ 2 ^ 80 - 2 ^ (80 - s.build.headroom.val) →
    t.mc.lastRand.toNat < 2 ^ (80 - s.build.headroom.val) ∧
    ∃ u : State, RunAvoiding (fun _ x => x.resp.err ≠ 0) rs t u ∧
      u.mc.lastRand.toNat = t.mc.lastRand.toNat + rs.length

/-- 41_monotonic.md R174, 70_reset_and_hazards.md R279: an exhausted counter stays as it is, and MC_NEXT fails, until a later
millisecond or a successful MC_SETSTATE. -/
def Obligations.ExhaustedCounterStaysExhausted : Prop :=
  ∀ (s t : State) (rs : List Request), s.mc.primed = true → s.mc.lastRand.toNat + 1 = 2 ^ 80 →
    RunAvoiding (fun r u => forcesCounter r u ∨
      (decode r.command.word = some .mcNext ∧ s.mc.lastMillis.toInt < r.ports.millisIn.toInt)) rs s t →
    t.mc = s.mc ∧
    (t.ports.millisIn.toInt ≤ s.mc.lastMillis.toInt →
      ∃ u : State, exec .mcNext t = .next u ∧ u.resp.err = 6 ∧ u.resp.info = 0 ∧ u.mc = s.mc)

/-- 41_monotonic.md R179: with no successful MC_SETSTATE, MC_LAST_MILLIS of a primed counter never goes down. -/
def Obligations.CounterMillisecondNeverGoesDown : Prop :=
  ∀ (s t : State) (rs : List Request), s.mc.primed = true → RunAvoiding forcesCounter rs s t →
    t.mc.primed = true ∧ s.mc.lastMillis.toInt ≤ t.mc.lastMillis.toInt

/-- 70_reset_and_hazards.md R280: ULIDs built as `BYTES_6(W1) ‖ Q[0..9]` from successive successful MC_NEXT, with no
successful MC_SETSTATE between them, are strictly increasing when W1 is in range. -/
def Obligations.UlidsFromW1StrictlyIncrease : Prop :=
  ∀ (s t u v : State) (r r' : Request) (between : List Request),
    decode r.command.word = some .mcNext → execPresented (present r s) = .next t → t.resp.err = 0 →
    RunAvoiding forcesCounter between t u →
    decode r'.command.word = some .mcNext → execPresented (present r' u) = .next v → v.resp.err = 0 →
    0 ≤ t.resp.payload.w1.toInt → v.resp.payload.w1.toInt < 2 ^ 48 →
    be (ulidOf t.resp) < be (ulidOf v.resp)

/-- 41_monotonic.md R175: MC_GETSTATE reads the counter state, in every state. -/
def Obligations.McGetstateReadsTheCounter : Prop :=
  decode 0x00000021#32 = some .mcGetstate ∧
  ∀ s : State, exec .mcGetstate s = .next (okState s
    ⟨lanesOf (bytes10 s.mc.lastRand), s.mc.lastMillis, if s.mc.primed = true then 1 else 0, 0⟩)

/-- 41_monotonic.md R176, 30_encoding.md R88: MC_SETSTATE forces the counter state, or fails and changes nothing. -/
def Obligations.McSetstateForcesTheCounterOrFails : Prop :=
  decode 0x00000022#32 = some .mcSetstate ∧
  ∀ s : State,
    (s.cmd.c.toNat < 2 → exec .mcSetstate s = .next (okState
      { s with mc := ⟨decide (s.cmd.c.toNat = 1), s.cmd.b, BitVec.ofNat 80 (be (laneList s.cmd.a 10))⟩ }
      ⟨zeroLanes, 0, 0, 0⟩)) ∧
    (2 ≤ s.cmd.c.toNat → exec .mcSetstate s = .next (errState s 4 1))

/-! ### The B32 unit -/

/-- 42_base32.md R190, R191: the 32 symbols, their codes strictly increasing; an entry of DECODE_TABLE is `v` exactly
where ALPHABET spells `v`, and the sentinel 0xFF at every other code. That the codes increase is the spec's own inference
("The codes are strictly increasing with `v` [derived: from the table]"). -/
def Obligations.DecodeTableInvertsTheAlphabet : Prop :=
  alphabet.map (fun c => Char.ofNat c.toNat) = "0123456789ABCDEFGHJKMNPQRSTVWXYZ".toList ∧
  alphabet.length = 32 ∧ decodeTable.length = 256 ∧
  (∀ v < 32, ∀ w < v, (alphabetAt w).toNat < (alphabetAt v).toNat) ∧
  (∀ c : Byte,
    (∀ v < 32, alphabetAt v = c → decodeAt c = BitVec.ofNat 8 v) ∧
    ((∀ v < 32, alphabetAt v ≠ c) → decodeAt c = 0xFF#8))

/-- 42_base32.md R192 to R194: B32_ENC of 6 bytes and of 10 bytes, digit by digit, and every other length. What `exec`
answers for a length of 32 or more, which no word encodes, is the model's choice (log entry 14). -/
def Obligations.B32EncSpellsTheChunk : Prop :=
  (∀ n < 32, decode (0x00000030#32 ||| (BitVec.ofNat 32 n <<< 8)) = some (.b32Enc n)) ∧
  ∀ s : State,
    (∃ q : Lanes, exec (.b32Enc 6) s = .next (okState s ⟨q, 0, 0, 0⟩) ∧
      ∀ j < 16, lane q j =
        if j < 10 then alphabetAt (be (laneList s.cmd.a 6) / 32 ^ (9 - j) % 32) else 0) ∧
    (∃ q : Lanes, exec (.b32Enc 10) s = .next (okState s ⟨q, 0, 0, 0⟩) ∧
      ∀ j < 16, lane q j = alphabetAt (be (laneList s.cmd.a 10) / 32 ^ (15 - j) % 32)) ∧
    (∀ n : Nat, n ≠ 6 → n ≠ 10 → exec (.b32Enc n) s = .next (errState s 5 (BitVec.ofNat 8 n)))

/-- 42_base32.md R195, R196: the digits are those of the fixed formulas. -/
def Obligations.EncodeDigitsAreTheFixedFormulas : Prop :=
  (∀ b0 b1 b2 b3 b4 b5 : Byte,
    digits 10 (be [b0, b1, b2, b3, b4, b5]) =
      ([b0 >>> 5, b0 &&& 0x1F, b1 >>> 3, ((b1 &&& 0x07) <<< 2) ||| (b2 >>> 6), (b2 >>> 1) &&& 0x1F,
        ((b2 &&& 0x01) <<< 4) ||| (b3 >>> 4), ((b3 &&& 0x0F) <<< 1) ||| (b4 >>> 7), (b4 >>> 2) &&& 0x1F,
        ((b4 &&& 0x03) <<< 3) ||| (b5 >>> 5), b5 &&& 0x1F] : List Byte).map BitVec.toNat) ∧
  (∀ b0 b1 b2 b3 b4 b5 b6 b7 b8 b9 : Byte,
    let group := fun (p0 p1 p2 p3 p4 : Byte) =>
      ([p0 >>> 3, ((p0 &&& 0x07) <<< 2) ||| (p1 >>> 6), (p1 >>> 1) &&& 0x1F,
        ((p1 &&& 0x01) <<< 4) ||| (p2 >>> 4), ((p2 &&& 0x0F) <<< 1) ||| (p3 >>> 7), (p3 >>> 2) &&& 0x1F,
        ((p3 &&& 0x03) <<< 3) ||| (p4 >>> 5), p4 &&& 0x1F] : List Byte)
    digits 16 (be [b0, b1, b2, b3, b4, b5, b6, b7, b8, b9]) =
      (group b0 b1 b2 b3 b4 ++ group b5 b6 b7 b8 b9).map BitVec.toNat)

/-- 42_base32.md R197 to R199, R202, R203: B32_DEC. The length is checked first, then the characters at the lowest
invalid lane, then the excess bits under REJECT. What `exec` answers for a length of 32 or more, which no word encodes,
is the model's choice (log entry 14). -/
def Obligations.B32DecReadsTheTextOrFails : Prop :=
  (∀ n < 32, decode (0x00000031#32 ||| (BitVec.ofNat 32 n <<< 8)) = some (.b32Dec n)) ∧
  ∀ s : State,
    let d := fun j => (decodeAt (lane s.cmd.a j)).toNat
    let value := fun n => ((List.range n).map fun j => d j * 32 ^ (n - 1 - j)).sum
    (∀ n : Nat, n ≠ 10 → n ≠ 16 → exec (.b32Dec n) s = .next (errState s 5 (BitVec.ofNat 8 n))) ∧
    (∀ n j : Nat, n = 10 ∨ n = 16 → j < n → (∀ i < j, d i < 32) → 32 ≤ d j →
      exec (.b32Dec n) s = .next (errState s 4 (BitVec.ofNat 8 j))) ∧
    ((∀ j < 10, d j < 32) → value 10 / 2 ^ 48 = 0 ∨ s.build.excess = .discard →
      exec (.b32Dec 10) s = .next (okState s ⟨lanesOf (bytes 6 (value 10 % 2 ^ 48)), 0, 0, 0⟩)) ∧
    ((∀ j < 10, d j < 32) → value 10 / 2 ^ 48 ≠ 0 → s.build.excess = .reject →
      exec (.b32Dec 10) s = .next (errState s 4 0x80)) ∧
    ((∀ j < 16, d j < 32) →
      exec (.b32Dec 16) s = .next (okState s ⟨lanesOf (bytes 10 (value 16)), 0, 0, 0⟩))

/-- 42_base32.md R202: a 10-character text is over-range exactly when its first digit is 8 to 31; what B32_DEC answers
then, for either value of `P_DEC10_EXCESS`. -/
def Obligations.OverRangeMeansFirstDigitEightOrMore : Prop :=
  ∀ s t : State, (∀ j < 10, (decodeAt (lane s.cmd.a j)).toNat < 32) → exec (.b32Dec 10) s = .next t →
    let value := digitsValue ((laneList s.cmd.a 10).map decodeAt)
    (value / 2 ^ 48 ≠ 0 ↔ 8 ≤ (decodeAt (lane s.cmd.a 0)).toNat) ∧
    (t.resp.err = 0 ↔ (decodeAt (lane s.cmd.a 0)).toNat < 8 ∨ s.build.excess = .discard) ∧
    (t.resp.err = 0 → t.resp.payload.q = lanesOf (bytes 6 (value % 2 ^ 48))) ∧
    (t.resp.err = 0 ∨ (t.resp.err = 4 ∧ t.resp.info = 0x80))

/-- 42_base32.md R200, R201: the bytes are those of the fixed formulas. -/
def Obligations.DecodeBytesAreTheFixedFormulas : Prop :=
  (∀ d0 d1 d2 d3 d4 d5 d6 d7 d8 d9 : Byte,
    (∀ d ∈ [d0, d1, d2, d3, d4, d5, d6, d7, d8, d9], d.toNat < 32) →
    bytes 6 (digitsValue [d0, d1, d2, d3, d4, d5, d6, d7, d8, d9] % 2 ^ 48) =
      [((d0 &&& 0x07) <<< 5) ||| d1, (d2 <<< 3) ||| (d3 >>> 2),
       ((d3 &&& 0x03) <<< 6) ||| (d4 <<< 1) ||| (d5 >>> 4), ((d5 &&& 0x0F) <<< 4) ||| (d6 >>> 1),
       ((d6 &&& 0x01) <<< 7) ||| (d7 <<< 2) ||| (d8 >>> 3), ((d8 &&& 0x07) <<< 5) ||| d9]) ∧
  (∀ d0 d1 d2 d3 d4 d5 d6 d7 e0 e1 e2 e3 e4 e5 e6 e7 : Byte,
    (∀ d ∈ [d0, d1, d2, d3, d4, d5, d6, d7, e0, e1, e2, e3, e4, e5, e6, e7], d.toNat < 32) →
    let group := fun (q0 q1 q2 q3 q4 q5 q6 q7 : Byte) =>
      [(q0 <<< 3) ||| (q1 >>> 2), ((q1 &&& 0x03) <<< 6) ||| (q2 <<< 1) ||| (q3 >>> 4),
       ((q3 &&& 0x0F) <<< 4) ||| (q4 >>> 1), ((q4 &&& 0x01) <<< 7) ||| (q5 <<< 2) ||| (q6 >>> 3),
       ((q6 &&& 0x07) <<< 5) ||| q7]
    bytes 10 (digitsValue [d0, d1, d2, d3, d4, d5, d6, d7, e0, e1, e2, e3, e4, e5, e6, e7]) =
      group d0 d1 d2 d3 d4 d5 d6 d7 ++ group e0 e1 e2 e3 e4 e5 e6 e7)

/-- 42_base32.md R204: decoding an encoding gives the bytes back, under either value of `P_DEC10_EXCESS`. -/
def Obligations.DecodeOfEncodeIsTheChunk : Prop :=
  (∀ s t u : State, exec (.b32Enc 6) s = .next t → u.cmd.a = t.resp.payload.q →
    ∃ v : State, exec (.b32Dec 10) u = .next v ∧ v.resp.err = 0 ∧
      laneList v.resp.payload.q 6 = laneList s.cmd.a 6) ∧
  (∀ s t u : State, exec (.b32Enc 10) s = .next t → u.cmd.a = t.resp.payload.q →
    ∃ v : State, exec (.b32Dec 16) u = .next v ∧ v.resp.err = 0 ∧
      laneList v.resp.payload.q 10 = laneList s.cmd.a 10)

/-- 42_base32.md R204: encoding a decoded text gives the text back, for 16 characters always and for 10 characters
exactly when the first is 0 to 7. -/
def Obligations.EncodeOfDecodeIsTheText : Prop :=
  (∀ s t u v : State, exec (.b32Dec 16) s = .next t → t.resp.err = 0 → u.cmd.a = t.resp.payload.q →
    exec (.b32Enc 10) u = .next v → laneList v.resp.payload.q 16 = laneList s.cmd.a 16) ∧
  (∀ s t u v : State, exec (.b32Dec 10) s = .next t → t.resp.err = 0 → u.cmd.a = t.resp.payload.q →
    exec (.b32Enc 6) u = .next v →
    (laneList v.resp.payload.q 10 = laneList s.cmd.a 10 ↔ (decodeAt (lane s.cmd.a 0)).toNat < 8))

/-- 42_base32.md R204: text of equal length sorts as the integers it spells. -/
def Obligations.TextSortsAsTheIntegersItSpells : Prop :=
  ∀ k u v : Nat, u < 32 ^ k → v < 32 ^ k →
    ((encodeChars k u).map BitVec.toNat < (encodeChars k v).map BitVec.toNat ↔ u < v)

/-- 42_base32.md R205, 30_encoding.md R94: the ULID pseudo-commands. The text is the two chunks encoded independently,
26 characters, and parsing it reproduces the 16 bytes. -/
def Obligations.UlidTextRoundTrips : Prop :=
  ∀ (bs : List Byte) (p : Ports) (s : State), bs.length = 16 →
    ∃ t u v w : State,
      execPresented (present ⟨b32Enc6Command (bs.take 6), p⟩ s) = .next t ∧
      execPresented (present ⟨b32Enc10Command (bs.drop 6), p⟩ t) = .next u ∧
      ulidText t.resp u.resp = encodeChars 10 (be (bs.take 6)) ++ encodeChars 16 (be (bs.drop 6)) ∧
      (ulidText t.resp u.resp).length = 26 ∧
      execPresented (present ⟨b32Dec10Command ((ulidText t.resp u.resp).take 10), p⟩ u) = .next v ∧
      execPresented (present ⟨b32Dec16Command ((ulidText t.resp u.resp).drop 10), p⟩ v) = .next w ∧
      v.resp.err = 0 ∧ w.resp.err = 0 ∧ ulidBytes v.resp w.resp = bs

/-- 20_memory.md R61: on a 128-bit bus lane `i` is bits `[8i+7:8i]`. -/
def Obligations.LaneOccupiesItsBusBits : Prop :=
  ∀ (a : Lanes) (i : Nat), i < 16 → (busOf a).extractLsb' (8 * i) 8 = lane a i
end

