-- ==== Sys2Proof/Laws/Bits.lean ====
section
/-! SUPPORT. Byte sequences, masks and packing as arithmetic (00_scope.md R10, 40_bitpack.md R128). -/

namespace Sys2Proof.Machine

/-! ### Masks -/

theorem ones_toNat {w n : Nat} (h : n ≤ w) : (ones w n).toNat = 2 ^ n - 1 := by
  have h1 : 2 ^ n ≤ 2 ^ w := Nat.pow_le_pow_right (by omega) h
  have h2 : 0 < 2 ^ n := Nat.two_pow_pos n
  simp only [ones, BitVec.toNat_ofNat]
  exact Nat.mod_eq_of_lt (by omega)

theorem and_ones_toNat {w n : Nat} (x : BitVec w) (h : n ≤ w) : (x &&& ones w n).toNat = x.toNat % 2 ^ n := by
  rw [BitVec.toNat_and, ones_toNat h, Nat.and_two_pow_sub_one_eq_mod]

theorem and_setWidth_ones_toNat {w v n : Nat} (x : BitVec w) (hv : v ≤ w) (h : n ≤ v) :
    (x &&& (ones v n).setWidth w).toNat = x.toNat % 2 ^ n := by
  rw [BitVec.toNat_and, BitVec.toNat_setWidth, ones_toNat h, Nat.mod_eq_of_lt, Nat.and_two_pow_sub_one_eq_mod]
  have h1 : 2 ^ n ≤ 2 ^ w := Nat.pow_le_pow_right (by omega) (by omega)
  have h2 : 0 < 2 ^ n := Nat.two_pow_pos n
  omega

/-! ### Byte sequences -/

@[simp] theorem be_nil : be [] = 0 := rfl

theorem be_append_singleton (bs : List Byte) (x : Byte) : be (bs ++ [x]) = be bs * 256 + x.toNat := by
  simp [be]

theorem be_foldl_from (bs : List Byte) (a : Nat) :
    bs.foldl (fun acc x => acc * 256 + x.toNat) a = a * 256 ^ bs.length + be bs := by
  induction bs generalizing a with
  | nil => simp
  | cons x xs ih =>
    simp only [List.foldl_cons, List.length_cons, be, ih (a * 256 + x.toNat), ih (0 * 256 + x.toNat)]
    ring

theorem be_cons (x : Byte) (xs : List Byte) : be (x :: xs) = x.toNat * 256 ^ xs.length + be xs := by
  have h := be_foldl_from xs (0 * 256 + x.toNat)
  rw [Nat.zero_mul, Nat.zero_add] at h
  rw [be, List.foldl_cons, Nat.zero_mul, Nat.zero_add, h]

theorem be_append (xs ys : List Byte) : be (xs ++ ys) = be xs * 256 ^ ys.length + be ys := by
  rw [be, List.foldl_append, be_foldl_from ys]
  rfl

theorem be_lt (bs : List Byte) : be bs < 256 ^ bs.length := by
  induction bs with
  | nil => simp
  | cons x xs ih =>
    rw [be_cons, List.length_cons, pow_succ]
    have hx : x.toNat < 256 := x.isLt
    nlinarith

@[simp] theorem bytes_length (n v : Nat) : (bytes n v).length = n := by
  induction n generalizing v with
  | zero => rfl
  | succ n ih => simp [bytes, ih]

theorem be_bytes_mod (n v : Nat) : be (bytes n v) = v % 256 ^ n := by
  induction n generalizing v with
  | zero => simp [bytes, Nat.mod_one]
  | succ n ih =>
    have h := Nat.mod_mul (x := v) (a := 256) (b := 256 ^ n)
    rw [bytes, be_append_singleton, ih, BitVec.toNat_ofNat, Nat.pow_succ' (m := 256), h, Nat.mul_comm, Nat.add_comm]

theorem be_bytes {n v : Nat} (h : v < 256 ^ n) : be (bytes n v) = v := by
  rw [be_bytes_mod, Nat.mod_eq_of_lt h]

theorem bytes_of_be (bs : List Byte) : bytes bs.length (be bs) = bs := by
  induction bs using List.reverseRecOn with
  | nil => rfl
  | append_singleton xs x ih =>
    have hx : x.toNat < 256 := x.isLt
    rw [List.length_append, List.length_singleton, bytes, be_append_singleton,
      show (be xs * 256 + x.toNat) / 256 = be xs by omega, ih]
    congr 2
    apply BitVec.eq_of_toNat_eq
    simp only [BitVec.toNat_ofNat]
    omega

theorem bytes_of_be_length {n : Nat} {bs : List Byte} (h : bs.length = n) : bytes n (be bs) = bs := by
  subst h
  exact bytes_of_be bs

/-! ### Lanes -/

theorem lane_lanesOf (bs : List Byte) {i : Nat} (h : i < 16) : lane (lanesOf bs) i = bs.getD i 0#8 := by
  simp only [lane, lanesOf, List.getD_eq_getElem?_getD]
  rw [Vector.getElem?_toList, Vector.getElem?_eq_getElem h]
  simp

theorem laneList_lanesOf {bs : List Byte} (h : bs.length ≤ 16) : laneList (lanesOf bs) bs.length = bs := by
  apply List.ext_getElem
  · simp [laneList, h]
  · intro i h1 h2
    simp [laneList, lanesOf, h2]

theorem laneList_lanesOf_length {bs : List Byte} {n : Nat} (hn : bs.length = n) (h : n ≤ 16) :
    laneList (lanesOf bs) n = bs := by
  subst hn
  exact laneList_lanesOf h

@[simp] theorem laneList_length (a : Lanes) (n : Nat) : (laneList a n).length = min n 16 := by
  simp [laneList]

theorem u80Of_toNat {bs : List Byte} (h : bs.length = 10) : (u80Of bs).toNat = be bs := by
  have := be_lt bs
  rw [h] at this
  simp only [u80Of, BitVec.toNat_ofNat]
  exact Nat.mod_eq_of_lt (by simpa using this)

theorem be_bytes10 (r : BitVec 80) : be (bytes10 r) = r.toNat := be_bytes (by simpa using r.isLt)

/-! ### Packing -/

/-- The three fields of an id do not overlap under a layout of 63 bits (40_bitpack.md R128). -/
theorem packId_fields {sf : SfUnit} {ts : U64} {gid sq : BitVec 31}
    (hts : ts.toNat * 2 ^ shiftTime sf < 2 ^ 64) (hgid : gid.toNat < 2 ^ sf.genBits.toNat)
    (hsq : sq.toNat < 2 ^ sf.seqBits.toNat) :
    (packId sf ts gid sq).toNat = ts.toNat * 2 ^ shiftTime sf + (gid.toNat * 2 ^ sf.seqBits.toNat + sq.toNat) := by
  have hg : gid.toNat * 2 ^ sf.seqBits.toNat + sq.toNat < 2 ^ shiftTime sf := by
    rw [shiftTime, Nat.pow_add]
    nlinarith
  have hg31 : sf.genBits.toNat + sf.seqBits.toNat < 64 := by
    have h1 := sf.genBits.isLt
    have h2 := sf.seqBits.isLt
    omega
  have hgs : gid.toNat * 2 ^ sf.seqBits.toNat < 2 ^ 64 := by
    have : 2 ^ shiftTime sf ≤ 2 ^ 64 := Nat.pow_le_pow_right (by omega) (by rw [shiftTime]; omega)
    omega
  have hs64 : sq.toNat < 2 ^ 64 := by have := sq.isLt; omega
  have hg64 : gid.toNat < 2 ^ 64 := by have := gid.isLt; omega
  simp only [packId, BitVec.toNat_or, BitVec.toNat_shiftLeft, BitVec.toNat_setWidth, Nat.shiftLeft_eq, shiftGenerator,
    Nat.mod_eq_of_lt hts, Nat.mod_eq_of_lt hgs, Nat.mod_eq_of_lt hs64, Nat.mod_eq_of_lt hg64]
  rw [Nat.or_assoc]
  have e1 : gid.toNat * 2 ^ sf.seqBits.toNat ||| sq.toNat = gid.toNat * 2 ^ sf.seqBits.toNat + sq.toNat := by
    rw [Nat.mul_comm, Nat.two_pow_add_eq_or_of_lt hsq]
  rw [e1, Nat.mul_comm ts.toNat, Nat.two_pow_add_eq_or_of_lt hg]

/-! ### Fields of a byte -/

/-- Fields that do not overlap add up. -/
theorem mul_or_eq_add {k x y : Nat} (h : y < 2 ^ k) : x * 2 ^ k ||| y = x * 2 ^ k + y := by
  rw [Nat.mul_comm]
  exact (Nat.two_pow_add_eq_or_of_lt h x).symm

end Sys2Proof.Machine
end

