-- ==== Sys2Proof/Laws/State.lean ====
section
/-! SUPPORT. One lemma per field of State for every named update, so that no proof unfolds one. -/

namespace Sys2Proof.Machine

@[simp] theorem tickSampled_sf (s : State) : (tickSampled s).sf = s.sf := rfl
@[simp] theorem tickSampled_mc (s : State) : (tickSampled s).mc = s.mc := rfl
@[simp] theorem tickSampled_status (s : State) : (tickSampled s).status = s.status := rfl
@[simp] theorem tickSampled_cmd (s : State) : (tickSampled s).cmd = s.cmd := rfl
@[simp] theorem tickSampled_ports (s : State) : (tickSampled s).ports = s.ports := rfl
@[simp] theorem tickSampled_reads (s : State) :
    (tickSampled s).reads = { s.reads with tick := s.reads.tick + 1 } := rfl
@[simp] theorem tickSampled_resp (s : State) : (tickSampled s).resp = s.resp := rfl
@[simp] theorem tickSampled_hosts (s : State) : (tickSampled s).hosts = s.hosts := rfl
@[simp] theorem tickSampled_resetIn (s : State) : (tickSampled s).resetIn = s.resetIn := rfl
@[simp] theorem tickSampled_choices (s : State) : (tickSampled s).choices = s.choices := rfl
@[simp] theorem tickSampled_build (s : State) : (tickSampled s).build = s.build := rfl

@[simp] theorem millisSampled_sf (s : State) : (millisSampled s).sf = s.sf := rfl
@[simp] theorem millisSampled_mc (s : State) : (millisSampled s).mc = s.mc := rfl
@[simp] theorem millisSampled_status (s : State) : (millisSampled s).status = s.status := rfl
@[simp] theorem millisSampled_cmd (s : State) : (millisSampled s).cmd = s.cmd := rfl
@[simp] theorem millisSampled_ports (s : State) : (millisSampled s).ports = s.ports := rfl
@[simp] theorem millisSampled_reads (s : State) :
    (millisSampled s).reads = { s.reads with millis := s.reads.millis + 1 } := rfl
@[simp] theorem millisSampled_resp (s : State) : (millisSampled s).resp = s.resp := rfl
@[simp] theorem millisSampled_hosts (s : State) : (millisSampled s).hosts = s.hosts := rfl
@[simp] theorem millisSampled_resetIn (s : State) : (millisSampled s).resetIn = s.resetIn := rfl
@[simp] theorem millisSampled_choices (s : State) : (millisSampled s).choices = s.choices := rfl
@[simp] theorem millisSampled_build (s : State) : (millisSampled s).build = s.build := rfl

@[simp] theorem randSampled_sf (s : State) : (randSampled s).sf = s.sf := rfl
@[simp] theorem randSampled_mc (s : State) : (randSampled s).mc = s.mc := rfl
@[simp] theorem randSampled_status (s : State) : (randSampled s).status = s.status := rfl
@[simp] theorem randSampled_cmd (s : State) : (randSampled s).cmd = s.cmd := rfl
@[simp] theorem randSampled_ports (s : State) : (randSampled s).ports = s.ports := rfl
@[simp] theorem randSampled_reads (s : State) :
    (randSampled s).reads = { s.reads with rand := s.reads.rand + 1 } := rfl
@[simp] theorem randSampled_resp (s : State) : (randSampled s).resp = s.resp := rfl
@[simp] theorem randSampled_hosts (s : State) : (randSampled s).hosts = s.hosts := rfl
@[simp] theorem randSampled_resetIn (s : State) : (randSampled s).resetIn = s.resetIn := rfl
@[simp] theorem randSampled_choices (s : State) : (randSampled s).choices = s.choices := rfl
@[simp] theorem randSampled_build (s : State) : (randSampled s).build = s.build := rfl

@[simp] theorem present_sf (r : Request) (s : State) : (present r s).sf = s.sf := rfl
@[simp] theorem present_mc (r : Request) (s : State) : (present r s).mc = s.mc := rfl
@[simp] theorem present_status (r : Request) (s : State) : (present r s).status = s.status := rfl
@[simp] theorem present_cmd (r : Request) (s : State) : (present r s).cmd = r.command := rfl
@[simp] theorem present_ports (r : Request) (s : State) : (present r s).ports = r.ports := rfl
@[simp] theorem present_reads (r : Request) (s : State) : (present r s).reads = ⟨0, 0, 0⟩ := rfl
@[simp] theorem present_resp (r : Request) (s : State) : (present r s).resp = s.resp := rfl
@[simp] theorem present_hosts (r : Request) (s : State) : (present r s).hosts = s.hosts := rfl
@[simp] theorem present_resetIn (r : Request) (s : State) : (present r s).resetIn = s.resetIn := rfl
@[simp] theorem present_choices (r : Request) (s : State) : (present r s).choices = s.choices := rfl
@[simp] theorem present_build (r : Request) (s : State) : (present r s).build = s.build := rfl

@[simp] theorem takeFrom_sf (h : Nat) (s : State) : (takeFrom h s).sf = s.sf := rfl
@[simp] theorem takeFrom_mc (h : Nat) (s : State) : (takeFrom h s).mc = s.mc := rfl
@[simp] theorem takeFrom_status (h : Nat) (s : State) : (takeFrom h s).status = s.status := rfl
@[simp] theorem takeFrom_cmd (h : Nat) (s : State) : (takeFrom h s).cmd = s.cmd := rfl
@[simp] theorem takeFrom_ports (h : Nat) (s : State) : (takeFrom h s).ports = s.ports := rfl
@[simp] theorem takeFrom_reads (h : Nat) (s : State) : (takeFrom h s).reads = s.reads := rfl
@[simp] theorem takeFrom_resp (h : Nat) (s : State) : (takeFrom h s).resp = s.resp := rfl
@[simp] theorem takeFrom_hosts (h : Nat) (s : State) :
    (takeFrom h s).hosts =
      s.hosts.modify h fun p => { p with issued := p.issued.tail, servedAt := s.choices + 1 } := rfl
@[simp] theorem takeFrom_resetIn (h : Nat) (s : State) : (takeFrom h s).resetIn = s.resetIn := rfl
@[simp] theorem takeFrom_choices (h : Nat) (s : State) : (takeFrom h s).choices = s.choices + 1 := rfl
@[simp] theorem takeFrom_build (h : Nat) (s : State) : (takeFrom h s).build = s.build := rfl

@[simp] theorem deliver_sf (h : Nat) (s : State) : (deliver h s).sf = s.sf := rfl
@[simp] theorem deliver_mc (h : Nat) (s : State) : (deliver h s).mc = s.mc := rfl
@[simp] theorem deliver_status (h : Nat) (s : State) : (deliver h s).status = s.status := rfl
@[simp] theorem deliver_cmd (h : Nat) (s : State) : (deliver h s).cmd = s.cmd := rfl
@[simp] theorem deliver_ports (h : Nat) (s : State) : (deliver h s).ports = s.ports := rfl
@[simp] theorem deliver_reads (h : Nat) (s : State) : (deliver h s).reads = s.reads := rfl
@[simp] theorem deliver_resp (h : Nat) (s : State) : (deliver h s).resp = s.resp := rfl
@[simp] theorem deliver_hosts (h : Nat) (s : State) :
    (deliver h s).hosts = s.hosts.modify h fun p => { p with answers := p.answers ++ [s.resp] } := rfl
@[simp] theorem deliver_resetIn (h : Nat) (s : State) : (deliver h s).resetIn = s.resetIn := rfl
@[simp] theorem deliver_choices (h : Nat) (s : State) : (deliver h s).choices = s.choices := rfl
@[simp] theorem deliver_build (h : Nat) (s : State) : (deliver h s).build = s.build := rfl

@[simp] theorem issue_sf (h : Nat) (r : Request) (s : State) : (issue h r s).sf = s.sf := rfl
@[simp] theorem issue_mc (h : Nat) (r : Request) (s : State) : (issue h r s).mc = s.mc := rfl
@[simp] theorem issue_status (h : Nat) (r : Request) (s : State) : (issue h r s).status = s.status := rfl
@[simp] theorem issue_cmd (h : Nat) (r : Request) (s : State) : (issue h r s).cmd = s.cmd := rfl
@[simp] theorem issue_ports (h : Nat) (r : Request) (s : State) : (issue h r s).ports = s.ports := rfl
@[simp] theorem issue_reads (h : Nat) (r : Request) (s : State) : (issue h r s).reads = s.reads := rfl
@[simp] theorem issue_resp (h : Nat) (r : Request) (s : State) : (issue h r s).resp = s.resp := rfl
@[simp] theorem issue_hosts (h : Nat) (r : Request) (s : State) :
    (issue h r s).hosts = s.hosts.modify h fun p => { p with issued := p.issued ++ [r] } := rfl
@[simp] theorem issue_resetIn (h : Nat) (r : Request) (s : State) : (issue h r s).resetIn = s.resetIn := rfl
@[simp] theorem issue_choices (h : Nat) (r : Request) (s : State) : (issue h r s).choices = s.choices := rfl
@[simp] theorem issue_build (h : Nat) (r : Request) (s : State) : (issue h r s).build = s.build := rfl

@[simp] theorem assertReset_sf (s : State) : (assertReset s).sf = s.sf := rfl
@[simp] theorem assertReset_mc (s : State) : (assertReset s).mc = s.mc := rfl
@[simp] theorem assertReset_status (s : State) : (assertReset s).status = s.status := rfl
@[simp] theorem assertReset_cmd (s : State) : (assertReset s).cmd = s.cmd := rfl
@[simp] theorem assertReset_ports (s : State) : (assertReset s).ports = s.ports := rfl
@[simp] theorem assertReset_reads (s : State) : (assertReset s).reads = s.reads := rfl
@[simp] theorem assertReset_resp (s : State) : (assertReset s).resp = s.resp := rfl
@[simp] theorem assertReset_hosts (s : State) : (assertReset s).hosts = s.hosts := rfl
@[simp] theorem assertReset_resetIn (s : State) : (assertReset s).resetIn = true := rfl
@[simp] theorem assertReset_choices (s : State) : (assertReset s).choices = s.choices := rfl
@[simp] theorem assertReset_build (s : State) : (assertReset s).build = s.build := rfl

@[simp] theorem okState_sf (s : State) (p : Payload) : (okState s p).sf = s.sf := rfl
@[simp] theorem okState_mc (s : State) (p : Payload) : (okState s p).mc = s.mc := rfl
@[simp] theorem okState_status (s : State) (p : Payload) : (okState s p).status = ⟨0, 0, s.status.errSeen⟩ := rfl
@[simp] theorem okState_cmd (s : State) (p : Payload) : (okState s p).cmd = s.cmd := rfl
@[simp] theorem okState_ports (s : State) (p : Payload) : (okState s p).ports = s.ports := rfl
@[simp] theorem okState_reads (s : State) (p : Payload) : (okState s p).reads = s.reads := rfl
@[simp] theorem okState_resp (s : State) (p : Payload) : (okState s p).resp = ⟨p, 0, 0⟩ := rfl
@[simp] theorem okState_hosts (s : State) (p : Payload) : (okState s p).hosts = s.hosts := rfl
@[simp] theorem okState_resetIn (s : State) (p : Payload) : (okState s p).resetIn = s.resetIn := rfl
@[simp] theorem okState_choices (s : State) (p : Payload) : (okState s p).choices = s.choices := rfl
@[simp] theorem okState_build (s : State) (p : Payload) : (okState s p).build = s.build := rfl

@[simp] theorem errState_sf (s : State) (c : BitVec 4) (i : Byte) : (errState s c i).sf = s.sf := rfl
@[simp] theorem errState_mc (s : State) (c : BitVec 4) (i : Byte) : (errState s c i).mc = s.mc := rfl
@[simp] theorem errState_status (s : State) (c : BitVec 4) (i : Byte) :
    (errState s c i).status = ⟨c, i, true⟩ := rfl
@[simp] theorem errState_cmd (s : State) (c : BitVec 4) (i : Byte) : (errState s c i).cmd = s.cmd := rfl
@[simp] theorem errState_ports (s : State) (c : BitVec 4) (i : Byte) : (errState s c i).ports = s.ports := rfl
@[simp] theorem errState_reads (s : State) (c : BitVec 4) (i : Byte) : (errState s c i).reads = s.reads := rfl
@[simp] theorem errState_resp (s : State) (c : BitVec 4) (i : Byte) :
    (errState s c i).resp = ⟨⟨zeroLanes, 0, 0, 0⟩, c, i⟩ := rfl
@[simp] theorem errState_hosts (s : State) (c : BitVec 4) (i : Byte) : (errState s c i).hosts = s.hosts := rfl
@[simp] theorem errState_resetIn (s : State) (c : BitVec 4) (i : Byte) :
    (errState s c i).resetIn = s.resetIn := rfl
@[simp] theorem errState_choices (s : State) (c : BitVec 4) (i : Byte) :
    (errState s c i).choices = s.choices := rfl
@[simp] theorem errState_build (s : State) (c : BitVec 4) (i : Byte) : (errState s c i).build = s.build := rfl

@[simp] theorem withFetchWord_sf (s : State) (n w : Nat) : (s.withFetchWord n w).sf = s.sf := rfl
@[simp] theorem withFetchWord_mc (s : State) (n w : Nat) : (s.withFetchWord n w).mc = s.mc := rfl
@[simp] theorem withFetchWord_status (s : State) (n w : Nat) : (s.withFetchWord n w).status = s.status := rfl
@[simp] theorem withFetchWord_cmd (s : State) (n w : Nat) : (s.withFetchWord n w).cmd = s.cmd := rfl
@[simp] theorem withFetchWord_ports (s : State) (n w : Nat) : (s.withFetchWord n w).ports = s.ports := rfl
@[simp] theorem withFetchWord_reads (s : State) (n w : Nat) : (s.withFetchWord n w).reads = s.reads := rfl
@[simp] theorem withFetchWord_resp (s : State) (n w : Nat) : (s.withFetchWord n w).resp = s.resp := rfl
@[simp] theorem withFetchWord_hosts (s : State) (n w : Nat) :
    (s.withFetchWord n w).hosts = onlyRequest ⟨{ s.cmd with word := tableWord n w }, s.ports⟩ s.hosts := rfl
@[simp] theorem withFetchWord_resetIn (s : State) (n w : Nat) : (s.withFetchWord n w).resetIn = false := rfl
@[simp] theorem withFetchWord_choices (s : State) (n w : Nat) : (s.withFetchWord n w).choices = s.choices := rfl
@[simp] theorem withFetchWord_build (s : State) (n w : Nat) : (s.withFetchWord n w).build = s.build := rfl

@[simp] theorem resetState_sf (s : State) : (resetState s).sf = SfUnit.reset := rfl
@[simp] theorem resetState_mc (s : State) : (resetState s).mc = McUnit.reset := rfl
@[simp] theorem resetState_status (s : State) : (resetState s).status = Status.reset := rfl
@[simp] theorem resetState_cmd (s : State) : (resetState s).cmd = State.reset.cmd := rfl
@[simp] theorem resetState_ports (s : State) : (resetState s).ports = State.reset.ports := rfl
@[simp] theorem resetState_reads (s : State) : (resetState s).reads = State.reset.reads := rfl
@[simp] theorem resetState_resp (s : State) : (resetState s).resp = State.reset.resp := rfl
@[simp] theorem resetState_hosts (s : State) :
    (resetState s).hosts = s.hosts.map fun p => { p with issued := [] } := rfl
@[simp] theorem resetState_resetIn (s : State) : (resetState s).resetIn = false := rfl
@[simp] theorem resetState_choices (s : State) : (resetState s).choices = s.choices + 1 := rfl
@[simp] theorem resetState_build (s : State) : (resetState s).build = s.build := rfl

@[simp] theorem statusOk_eq (st : Status) : statusOk st = ⟨0, 0, st.errSeen⟩ := rfl
@[simp] theorem statusErr_eq (e : ErrKind) (i : Byte) : statusErr e i = ⟨errCode e, i, true⟩ := rfl

end Sys2Proof.Machine
end

