-- ==== Sys2Proof/Laws/Ops.lean ====
section
/-! SUPPORT. What each shared operation can do, said once. -/

namespace Sys2Proof.Machine

/-! ### Answering -/

theorem respond_eq (p : Payload) (s : State) : respond p s = .next (okState s p) := rfl

theorem raise_eq (e : ErrKind) (i : Byte) (s : State) : raise e i s = .next (errState s (errCode e) i) := rfl

theorem gated_of_valid {s : State} (h : s.sf.cfgValid = true) (k : State → Result) : gated s k = k s := by
  simp [gated, h]

theorem gated_of_invalid {s : State} (h : s.sf.cfgValid = false) (k : State → Result) :
    gated s k = .next (errState s 7 0) := by
  simp [gated, h, raise_eq, errCode]

theorem errCode_range (e : ErrKind) : 1 ≤ (errCode e).toNat ∧ (errCode e).toNat ≤ 8 := by
  cases e <;> decide

theorem errCode_ne_zero (e : ErrKind) : errCode e ≠ 0 := by
  cases e <;> decide

theorem errState_endsCleanly (e : ErrKind) (i : Byte) {s t : State} (hsf : t.sf = s.sf) (hmc : t.mc = s.mc) :
    EndsCleanly s (errState t (errCode e) i) :=
  .inr ⟨(errCode_range e).1, (errCode_range e).2, rfl, hsf, hmc, rfl⟩

theorem okState_endsCleanly (p : Payload) {s t : State} (h : t.status = s.status) : EndsCleanly s (okState t p) :=
  .inl ⟨rfl, rfl, by simp [h]⟩

/-! ### The hosts -/

theorem readyFrom_eq_nil {ps : List HostPort} {n : Nat} :
    readyFrom ps n = [] ↔ ∀ p ∈ ps, p.issued = [] := by
  induction ps generalizing n with
  | nil => simp [readyFrom]
  | cons p ps ih =>
    by_cases h : p.issued = []
    · simp [readyFrom, h, ih]
    · simp [readyFrom, h]

theorem mem_readyFrom {ps : List HostPort} {n h : Nat} (hh : h ∈ readyFrom ps n) :
    ∃ p, n ≤ h ∧ ps[h - n]? = some p ∧ p.issued ≠ [] := by
  induction ps generalizing n with
  | nil => simp [readyFrom] at hh
  | cons p ps ih =>
    have tail : h ∈ readyFrom ps (n + 1) → ∃ q, n ≤ h ∧ (p :: ps)[h - n]? = some q ∧ q.issued ≠ [] := by
      intro ht
      obtain ⟨q, hle, hq, hne⟩ := ih ht
      refine ⟨q, by omega, ?_, hne⟩
      rw [show h - n = (h - (n + 1)) + 1 by omega]
      simpa using hq
    by_cases hp : p.issued = []
    · exact tail (by simpa [readyFrom, hp] using hh)
    · rw [readyFrom, if_neg hp, List.mem_cons] at hh
      rcases hh with rfl | ht
      · exact ⟨p, le_rfl, by simp, hp⟩
      · exact tail ht

theorem readyHosts_waiting {s : State} {h : Nat} (hh : h ∈ readyHosts s) :
    ∃ p, s.hosts[h]? = some p ∧ p.issued ≠ [] := by
  obtain ⟨p, -, hp, hne⟩ := mem_readyFrom hh
  exact ⟨p, by simpa using hp, hne⟩

theorem readyFrom_mem {ps : List HostPort} {n i : Nat} {p : HostPort} (hp : ps[i]? = some p) (hne : p.issued ≠ []) :
    n + i ∈ readyFrom ps n := by
  induction ps generalizing n i with
  | nil => simp at hp
  | cons q ps ih =>
    cases i with
    | zero =>
      obtain rfl : q = p := by simpa using hp
      simp [readyFrom, hne]
    | succ i =>
      have := ih (n := n + 1) (by simpa using hp)
      rw [show n + (i + 1) = n + 1 + i by omega]
      unfold readyFrom
      split <;> simp [this]

theorem mem_readyHosts {s : State} {h : Nat} {p : HostPort} (hp : s.hosts[h]? = some p) (hne : p.issued ≠ []) :
    h ∈ readyHosts s := by
  simpa [readyHosts] using readyFrom_mem (n := 0) hp hne

/-- The soonest of a list is in it, and none of it comes sooner. -/
theorem soonest_spec (key : Nat → Nat) (h : Nat) (rest : List Nat) :
    soonest key h rest ∈ h :: rest ∧ ∀ x ∈ h :: rest, key (soonest key h rest) ≤ key x := by
  induction rest generalizing h with
  | nil => simp [soonest]
  | cons y ys ih =>
    unfold soonest
    split
    · obtain ⟨hm, hle⟩ := ih y
      refine ⟨List.mem_cons_of_mem _ hm, fun x hx => ?_⟩
      rcases List.mem_cons.1 hx with rfl | hx
      · exact (hle y (by simp)).trans (by omega)
      · exact hle x hx
    · obtain ⟨hm, hle⟩ := ih h
      refine ⟨?_, fun x hx => ?_⟩
      · rcases List.mem_cons.1 hm with hm | hm
        · simp [hm]
        · simp [hm]
      · rcases List.mem_cons.1 hx with rfl | hx
        · exact hle _ (by simp)
        · rcases List.mem_cons.1 hx with rfl | hx
          · exact (hle h (by simp)).trans (by omega)
          · exact hle x (by simp [hx])

theorem turn_of_host {s : State} {h : Nat} {p : HostPort} (hp : s.hosts[h]? = some p) :
    turn s h = p.servedAt + Config.wait h p.servedAt := by
  simp [turn, hp]

/-- Issuing a command moves no host's turn. -/
@[simp] theorem turn_issue (h j : Nat) (r : Request) (s : State) : turn (issue h r s) j = turn s j := by
  by_cases e : h = j
  · subst e
    cases hp : s.hosts[h]? <;> simp [turn, hp]
  · simp [turn, e]

/-- Taking a command of one host moves no other host's turn. -/
theorem turn_takeFrom_of_ne {h j : Nat} (e : j ≠ h) (s : State) : turn (takeFrom j s) h = turn s h := by
  simp [turn, e]

/-- The next turn of a host whose command is taken comes after the choice that took it. -/
theorem turn_takeFrom_self {h : Nat} {s : State} {p : HostPort} (hp : s.hosts[h]? = some p) :
    s.choices + 1 ≤ turn (takeFrom h s) h := by
  simp [turn, hp]

/-- The grant goes to a host that is ready, whatever the free waits are. -/
theorem granted_mem (h : Nat) (rest : List Nat) (s : State) : granted h rest s ∈ h :: rest :=
  (soonest_spec _ _ _).1

/-- No ready host's turn comes before that of the host granted. -/
theorem granted_turn_le {h x : Nat} {rest : List Nat} {s : State} (hx : x ∈ h :: rest) :
    turn s (granted h rest s) ≤ turn s x := (soonest_spec _ _ _).2 x hx

/-- What the next event can be. -/
theorem nextEvent_cases (s : State) :
    (nextEvent s = .idle ∧ s.resetIn = false ∧ readyHosts s = []) ∨
    (nextEvent s = .reset ∧ s.resetIn = true) ∨
    (∃ h, nextEvent s = .command h ∧ h ∈ readyHosts s ∧ ∀ x ∈ readyHosts s, turn s h ≤ turn s x) ∨
    (∃ h, nextEvent s = .discard h ∧ s.resetIn = true ∧ h ∈ readyHosts s ∧
      ∀ x ∈ readyHosts s, turn s h ≤ turn s x) := by
  unfold nextEvent
  split
  · exact .inl ⟨rfl, ‹_›, ‹_›⟩
  · exact .inr (.inl ⟨rfl, ‹_›⟩)
  · next h rest hr => exact .inr (.inr (.inl ⟨_, rfl, hr ▸ granted_mem .., fun _ hx => granted_turn_le (hr ▸ hx)⟩))
  · next h rest hi hr =>
    split
    · exact .inr (.inl ⟨rfl, hi⟩)
    · exact .inr (.inr (.inl ⟨_, rfl, hr ▸ granted_mem .., fun _ hx => granted_turn_le (hr ▸ hx)⟩))
    · exact .inr (.inr (.inr ⟨_, rfl, hi, hr ▸ granted_mem .., fun _ hx => granted_turn_le (hr ▸ hx)⟩))

/-- A command event names a host with a request at the head of its queue. -/
theorem nextEvent_command {s : State} {h : Nat} (he : nextEvent s = .command h) :
    ∃ p r rest, s.hosts[h]? = some p ∧ p.issued = r :: rest ∧ headRequest h s = some r := by
  have hmem : h ∈ readyHosts s := by
    rcases nextEvent_cases s with ⟨h0, -⟩ | ⟨h0, -⟩ | ⟨h', h0, hm, -⟩ | ⟨h', h0, -⟩
    · exact absurd (h0 ▸ he) (by simp)
    · exact absurd (h0 ▸ he) (by simp)
    · obtain rfl : h' = h := by simpa using h0.symm.trans he
      exact hm
    · exact absurd (h0 ▸ he) (by simp)
  obtain ⟨p, hp, hne⟩ := readyHosts_waiting hmem
  obtain ⟨r, rest, hq⟩ := List.exists_cons_of_ne_nil hne
  exact ⟨p, r, rest, hp, hq, by simp [headRequest, hp, hq]⟩

end Sys2Proof.Machine
end

