-- ==== Sys2Proof/Laws/Exec.lean ====
section
/-! SUPPORT. What any command can do, said once for all fourteen (60_exceptions.md R234, 20_memory.md R64, R66). -/

namespace Sys2Proof.Machine

/-- `t` differs from `s` at most in the units, the status registers, the port-sample record and the response. -/
structure OuterFrame (s t : State) : Prop where
  cmd : t.cmd = s.cmd
  ports : t.ports = s.ports
  hosts : t.hosts = s.hosts
  resetIn : t.resetIn = s.resetIn
  choices : t.choices = s.choices
  build : t.build = s.build

theorem outerFrame_refl (s : State) : OuterFrame s s := ⟨rfl, rfl, rfl, rfl, rfl, rfl⟩

/-- The answer `o` of a command with unit writes allowed by `sfMay` and `mcMay`: a success, or an error that writes no
unit register; nothing outside the command's own record of effects changes. -/
inductive Ends (sfMay mcMay : Prop) (s : State) (o : Result) : Prop where
  | ok (t : State) (p : Payload) (eq : o = .next (okState t p)) (frame : OuterFrame s t) (status : t.status = s.status)
      (sf : ¬ sfMay → t.sf = s.sf) (mc : ¬ mcMay → t.mc = s.mc)
  | err (t : State) (e : ErrKind) (info : Byte) (eq : o = .next (errState t (errCode e) info)) (frame : OuterFrame s t)
      (status : t.status = s.status) (sf : t.sf = s.sf) (mc : t.mc = s.mc)

variable {sfMay mcMay : Prop} {s t : State}

theorem ends_respond (p : Payload) (frame : OuterFrame s t) (status : t.status = s.status)
    (sf : ¬ sfMay → t.sf = s.sf) (mc : ¬ mcMay → t.mc = s.mc) : Ends sfMay mcMay s (respond p t) :=
  .ok t p rfl frame status sf mc

theorem ends_raise (e : ErrKind) (i : Byte) (frame : OuterFrame s t) (status : t.status = s.status)
    (sf : t.sf = s.sf) (mc : t.mc = s.mc) : Ends sfMay mcMay s (raise e i t) :=
  .err t e i rfl frame status sf mc

/-- An answer that writes nothing but the response and the status registers. -/
theorem ends_respond_self (p : Payload) : Ends sfMay mcMay s (respond p s) :=
  ends_respond p (outerFrame_refl s) rfl (fun _ => rfl) (fun _ => rfl)

/-- An error raised in the state the command found. -/
theorem ends_raise_self (e : ErrKind) (i : Byte) : Ends sfMay mcMay s (raise e i s) :=
  ends_raise e i (outerFrame_refl s) rfl rfl rfl

theorem ends_gated {k : State → Result} (h : Ends sfMay mcMay s (k s)) : Ends sfMay mcMay s (gated s k) := by
  unfold gated
  split
  · exact h
  · exact ends_raise_self ..

theorem illegalCommand_ends : Ends sfMay mcMay s (illegalCommand s) := ends_raise_self ..

theorem execSfConfig_ends (hsf : sfMay) : Ends sfMay mcMay s (execSfConfig s) := by
  unfold execSfConfig
  split
  · exact ends_raise_self ..
  · exact ends_respond _ ⟨rfl, rfl, rfl, rfl, rfl, rfl⟩ rfl (absurd hsf) (fun _ => rfl)

theorem execSfCreate_ends (hsf : sfMay) : Ends sfMay mcMay s (execSfCreate s) := by
  refine ends_gated ?_
  have frame : OuterFrame s (tickSampled s) := ⟨rfl, rfl, rfl, rfl, rfl, rfl⟩
  have mints : ∀ ts sf, Ends sfMay mcMay s (mint ts sf (tickSampled s)) := fun _ _ =>
    ends_respond _ ⟨rfl, rfl, rfl, rfl, rfl, rfl⟩ rfl (absurd hsf) (fun _ => rfl)
  unfold createFrom
  split_ifs
  · exact ends_raise _ _ frame rfl rfl rfl
  · exact ends_raise _ _ frame rfl rfl rfl
  · exact ends_raise _ _ frame rfl rfl rfl
  · exact mints ..
  · exact mints ..

theorem execSfSetstate_ends (hsf : sfMay) : Ends sfMay mcMay s (execSfSetstate s) := by
  refine ends_gated ?_
  dsimp only
  split
  · exact ends_raise_self ..
  · exact ends_respond _ ⟨rfl, rfl, rfl, rfl, rfl, rfl⟩ rfl (absurd hsf) (fun _ => rfl)

theorem execMcNext_ends (hmc : mcMay) : Ends sfMay mcMay s (execMcNext s) := by
  unfold execMcNext
  split
  · exact ends_respond _ ⟨rfl, rfl, rfl, rfl, rfl, rfl⟩ rfl (fun _ => rfl) (absurd hmc)
  · unfold incrementDraw
    split
    · exact ends_raise _ _ ⟨rfl, rfl, rfl, rfl, rfl, rfl⟩ rfl rfl rfl
    · exact ends_respond _ ⟨rfl, rfl, rfl, rfl, rfl, rfl⟩ rfl (fun _ => rfl) (absurd hmc)

theorem execMcSetstate_ends (hmc : mcMay) : Ends sfMay mcMay s (execMcSetstate s) := by
  unfold execMcSetstate
  split
  · exact ends_raise_self ..
  · exact ends_respond _ ⟨rfl, rfl, rfl, rfl, rfl, rfl⟩ rfl (fun _ => rfl) (absurd hmc)

theorem execB32Enc_ends (n : Nat) : Ends sfMay mcMay s (execB32Enc n s) := by
  unfold execB32Enc
  split
  · exact ends_raise_self ..
  · exact ends_respond_self ..

theorem execB32Dec_ends (n : Nat) : Ends sfMay mcMay s (execB32Dec n s) := by
  unfold execB32Dec
  split
  · exact ends_raise_self ..
  · unfold decodeDigits
    split
    · exact ends_raise_self ..
    · split
      · unfold decoded10
        split
        · exact ends_raise_self ..
        · exact ends_respond_self ..
      · exact ends_respond_self ..

/-- Whether a command may write its unit's state: it belongs to the unit and is not read-only. -/
def mayWrite (u : CommandUnit) (i : Instr) : Prop := unitOf i = u ∧ readOnly i = false

/-- What a command can do: it ends with a success or an error; an error writes no unit register, a success only those
of its own unit, and only if the command is not read-only. -/
theorem exec_ends (i : Instr) (s : State) : Ends (mayWrite .sf i) (mayWrite .mc i) s (exec i s) := by
  cases i with
  | nop => exact ends_respond_self ..
  | sfConfig => exact execSfConfig_ends ⟨rfl, rfl⟩
  | sfCreate => exact execSfCreate_ends ⟨rfl, rfl⟩
  | sfDecode => exact ends_gated (ends_respond_self ..)
  | sfQcap => exact ends_gated (ends_respond_self ..)
  | sfQmask => exact ends_gated (ends_respond_self ..)
  | sfQlayout => exact ends_gated (ends_respond_self ..)
  | sfGetstate => exact ends_respond_self ..
  | sfSetstate => exact execSfSetstate_ends ⟨rfl, rfl⟩
  | mcNext => exact execMcNext_ends ⟨rfl, rfl⟩
  | mcGetstate => exact ends_respond_self ..
  | mcSetstate => exact execMcSetstate_ends ⟨rfl, rfl⟩
  | b32Enc n => exact execB32Enc_ends n
  | b32Dec n => exact execB32Dec_ends n

theorem ends_next {o : Result} (h : Ends sfMay mcMay s o) : ∃ t, o = .next t := by
  cases h with
  | ok t p eq => exact ⟨_, eq⟩
  | err t e info eq => exact ⟨_, eq⟩

theorem ends_frame {o : Result} (h : Ends sfMay mcMay s o) {u : State} (hu : o = .next u) : OuterFrame s u := by
  cases h with
  | ok t p eq frame =>
    cases eq.symm.trans hu
    exact ⟨frame.cmd, frame.ports, frame.hosts, frame.resetIn, frame.choices, frame.build⟩
  | err t e info eq frame =>
    cases eq.symm.trans hu
    exact ⟨frame.cmd, frame.ports, frame.hosts, frame.resetIn, frame.choices, frame.build⟩

theorem execPresented_ends (s : State) : ∃ sfMay mcMay, Ends sfMay mcMay s (execPresented s) := by
  unfold execPresented
  split
  · exact ⟨_, _, exec_ends _ s⟩
  · exact ⟨False, False, illegalCommand_ends⟩

theorem execPresented_of_decode {i : Instr} (h : decode s.cmd.word = some i) : execPresented s = exec i s := by
  simp [execPresented, h]

theorem execPresented_of_illegal (h : decode s.cmd.word = none) : execPresented s = illegalCommand s := by
  simp [execPresented, h]

/-- A command that fails writes no unit register (60_exceptions.md R234). -/
theorem unit_of_error {i : Instr} (h : exec i s = .next t) (herr : t.resp.err ≠ 0) : t.sf = s.sf ∧ t.mc = s.mc := by
  rcases exec_ends i s with ⟨u, p, eq, -, -, -, -⟩ | ⟨u, e, info, eq, -, -, hsf, hmc⟩
  · obtain rfl := Host.Outcome.next.inj (h.symm.trans eq)
    exact absurd rfl herr
  · obtain rfl := Host.Outcome.next.inj (h.symm.trans eq)
    exact ⟨hsf, hmc⟩

/-- A unit a command may not write is unchanged (20_memory.md R64, R66). -/
theorem unit_unwritten {i : Instr} (h : exec i s = .next t) :
    (¬ mayWrite .sf i → t.sf = s.sf) ∧ (¬ mayWrite .mc i → t.mc = s.mc) := by
  rcases exec_ends i s with ⟨u, p, eq, -, -, hsf, hmc⟩ | ⟨u, e, info, eq, -, -, hsf, hmc⟩
  · obtain rfl := Host.Outcome.next.inj (h.symm.trans eq)
    exact ⟨hsf, hmc⟩
  · obtain rfl := Host.Outcome.next.inj (h.symm.trans eq)
    exact ⟨fun _ => hsf, fun _ => hmc⟩

/-- A presented request whose word is legal is executed as the command it decodes to. -/
theorem execPresented_present {r : Request} {i : Instr} (h : decode r.command.word = some i) (s : State) :
    execPresented (present r s) = exec i (present r s) := execPresented_of_decode (s := present r s) h

/-- The pseudo-commands' words (30_encoding.md R94). -/
theorem commandOf_decodes (a : List Byte) (b c : U64) (p : Ports) {i : Instr} (h : decode (encode i) = some i) (s : State) :
    execPresented (present ⟨commandOf i a b c, p⟩ s) = exec i (present ⟨commandOf i a b c, p⟩ s) :=
  execPresented_present (r := ⟨commandOf i a b c, p⟩) h s

end Sys2Proof.Machine
end

