-- ==== Sys2Proof/Laws/Step.lean ====
section
/-! SUPPORT. What one step can do (20_memory.md R62, R63, 70_reset_and_hazards.md R270, R271). -/

namespace Sys2Proof.Machine

/-- The state a command of host `h` is executed in. -/
def presented (h : Nat) (r : Request) (s : State) : State := present r (takeFrom h s)

@[simp] theorem presented_sf (h : Nat) (r : Request) (s : State) : (presented h r s).sf = s.sf := rfl
@[simp] theorem presented_mc (h : Nat) (r : Request) (s : State) : (presented h r s).mc = s.mc := rfl
@[simp] theorem presented_status (h : Nat) (r : Request) (s : State) : (presented h r s).status = s.status := rfl
@[simp] theorem presented_cmd (h : Nat) (r : Request) (s : State) : (presented h r s).cmd = r.command := rfl
@[simp] theorem presented_ports (h : Nat) (r : Request) (s : State) : (presented h r s).ports = r.ports := rfl
@[simp] theorem presented_resp (h : Nat) (r : Request) (s : State) : (presented h r s).resp = s.resp := rfl
@[simp] theorem presented_build (h : Nat) (r : Request) (s : State) : (presented h r s).build = s.build := rfl
@[simp] theorem presented_resetIn (h : Nat) (r : Request) (s : State) : (presented h r s).resetIn = s.resetIn := rfl
@[simp] theorem presented_hosts (h : Nat) (r : Request) (s : State) : (presented h r s).hosts =
    s.hosts.modify h fun p => { p with issued := p.issued.tail, servedAt := s.choices + 1 } := rfl
@[simp] theorem presented_choices (h : Nat) (r : Request) (s : State) : (presented h r s).choices = s.choices + 1 := rfl

theorem step_idle {s : State} (he : nextEvent s = .idle) : step s = .next s := by simp [step, he]

theorem step_reset {s : State} (he : nextEvent s = .reset) : step s = .next (resetState s) := by simp [step, he]

/-- A command step is the execution of the presented command, then the delivery of its response. -/
theorem step_command {s : State} {h : Nat} {r : Request} (he : nextEvent s = .command h)
    (hr : headRequest h s = some r) : step s = answer h (execPresented (presented h r s)) := by
  simp [step, he, runCommand, hr, presented]

theorem step_discard {s : State} {h : Nat} (he : nextEvent s = .discard h) : step s = .next (takeFrom h s) := by
  simp [step, he]

/-- Everything a step can do: nothing, a reset, one command of a host with one waiting, or the discarding of one by an
asserted reset. -/
theorem step_cases (s : State) :
    (nextEvent s = .idle ∧ s.resetIn = false ∧ readyHosts s = [] ∧ step s = .next s) ∨
    (nextEvent s = .reset ∧ s.resetIn = true ∧ step s = .next (resetState s)) ∨
    (∃ h p r rest u, nextEvent s = .command h ∧ s.hosts[h]? = some p ∧ p.issued = r :: rest ∧
      execPresented (presented h r s) = .next u ∧ step s = .next (deliver h u)) ∨
    (∃ h p, nextEvent s = .discard h ∧ s.resetIn = true ∧ s.hosts[h]? = some p ∧ p.issued ≠ [] ∧
      step s = .next (takeFrom h s)) := by
  rcases nextEvent_cases s with ⟨he, hi, hr⟩ | ⟨he, hi⟩ | ⟨h, he, -⟩ | ⟨h, he, hi, hm, -⟩
  · exact .inl ⟨he, hi, hr, step_idle he⟩
  · exact .inr (.inl ⟨he, hi, step_reset he⟩)
  · obtain ⟨p, r, rest, hp, hq, hr⟩ := nextEvent_command he
    obtain ⟨_, _, hends⟩ := execPresented_ends (presented h r s)
    obtain ⟨u, hu⟩ := ends_next hends
    exact .inr (.inr (.inl ⟨h, p, r, rest, u, he, hp, hq, hu, by rw [step_command he hr, hu, answer]⟩))
  · obtain ⟨p, hp, hne⟩ := readyHosts_waiting hm
    exact .inr (.inr (.inr ⟨h, p, he, hi, hp, hne, step_discard he⟩))

/-- The outer frame of a presented command's execution. -/
theorem execPresented_frame {s u : State} (hu : execPresented s = .next u) : OuterFrame s u := by
  obtain ⟨_, _, hends⟩ := execPresented_ends s
  exact ends_frame hends hu

end Sys2Proof.Machine
end

