-- ==== Sys2Proof/Laws/Base32.lean ====
section
/-! SUPPORT. The B32 unit: digits, characters and the two tables (42_base32.md). -/

namespace Sys2Proof.Machine

/-! ### The tables -/

/-- An entry of DECODE_TABLE is computed from ALPHABET (42_base32.md R191). -/
theorem decodeAt_eq (c : Byte) : decodeAt c = decodeEntry c := by
  have h : c.toNat < 256 := c.isLt
  simp [decodeAt, decodeTable, List.getD_eq_getElem?_getD, h]

theorem decodeAt_alphabetAt : ∀ v < 32, decodeAt (alphabetAt v) = BitVec.ofNat 8 v := by
  simp only [decodeAt_eq]
  decide

theorem alphabetAt_decodeAt : ∀ c : Byte, (decodeAt c).toNat < 32 → alphabetAt (decodeAt c).toNat = c := by
  simp only [decodeAt_eq]
  decide +revert

/-! ### Digits -/

@[simp] theorem digits_length (k v : Nat) : (digits k v).length = k := by simp [digits]

@[simp] theorem encodeChars_length (k v : Nat) : (encodeChars k v).length = k := by simp [encodeChars]

/-- The last digit is `v % 32`, the others those of `v / 32`. -/
theorem digits_succ (k v : Nat) : digits (k + 1) v = digits k (v / 32) ++ [v % 32] := by
  rw [digits, List.range_succ, List.map_append, digits]
  congr 1
  · apply List.map_congr_left
    intro j hj
    have hlt : j < k := List.mem_range.1 hj
    rw [show 5 * (k + 1 - 1 - j) = 5 + 5 * (k - 1 - j) by omega, Nat.shiftRight_add,
      Nat.shiftRight_eq_div_pow v 5]
  · simp

theorem digits_lt {k v d : Nat} (h : d ∈ digits k v) : d < 32 := by
  obtain ⟨j, -, rfl⟩ := List.mem_map.1 h
  exact Nat.mod_lt _ (by decide)

theorem digits_getElem {k v j : Nat} (h : j < k) : (digits k v)[j]? = some (v / 32 ^ (k - 1 - j) % 32) := by
  rw [digits, List.getElem?_map, List.getElem?_range h]
  simp [Nat.shiftRight_eq_div_pow, Nat.pow_mul]

@[simp] theorem digitsValue_nil : digitsValue [] = 0 := rfl

theorem digitsValue_append_singleton (ds : List Byte) (d : Byte) :
    digitsValue (ds ++ [d]) = digitsValue ds * 32 + d.toNat := by simp [digitsValue]

theorem digitsValue_lt {ds : List Byte} (h : ∀ d ∈ ds, d.toNat < 32) : digitsValue ds < 32 ^ ds.length := by
  induction ds using List.reverseRecOn with
  | nil => simp
  | append_singleton ds d ih =>
    have h1 := ih fun x hx => h x (by simp [hx])
    have h2 := h d (by simp)
    rw [digitsValue_append_singleton, List.length_append, List.length_singleton, pow_succ]
    omega

/-- The digits of an integer spell it again (42_base32.md R193, R197). -/
theorem digitsValue_digits (k v : Nat) : digitsValue ((digits k v).map (BitVec.ofNat 8)) = v % 32 ^ k := by
  induction k generalizing v with
  | zero => simp [digits, Nat.mod_one]
  | succ k ih =>
    have h := Nat.mod_mul (x := v) (a := 32) (b := 32 ^ k)
    rw [digits_succ, List.map_append, List.map_singleton, digitsValue_append_singleton, ih, BitVec.toNat_ofNat,
      Nat.pow_succ' (m := 32), h]
    omega

/-- The digits of the integer a digit sequence spells are the sequence (42_base32.md R193, R197). -/
theorem digits_digitsValue {ds : List Byte} (h : ∀ d ∈ ds, d.toNat < 32) :
    digits ds.length (digitsValue ds) = ds.map BitVec.toNat := by
  induction ds using List.reverseRecOn with
  | nil => rfl
  | append_singleton ds d ih =>
    have h2 := h d (by simp)
    rw [List.length_append, List.length_singleton, digits_succ, digitsValue_append_singleton, List.map_append,
      show (digitsValue ds * 32 + d.toNat) / 32 = digitsValue ds by omega,
      show (digitsValue ds * 32 + d.toNat) % 32 = d.toNat by omega, ih fun x hx => h x (by simp [hx])]
    rfl

/-! ### Characters -/

theorem encodeChars_succ (k v : Nat) : encodeChars (k + 1) v = encodeChars k (v / 32) ++ [alphabetAt (v % 32)] := by
  rw [encodeChars, digits_succ, List.map_append]
  rfl

/-- Decoding the characters of an integer gives its digits. -/
theorem map_decodeAt_encodeChars (k v : Nat) :
    (encodeChars k v).map decodeAt = (digits k v).map (BitVec.ofNat 8) := by
  rw [encodeChars, List.map_map]
  exact List.map_congr_left fun d hd => decodeAt_alphabetAt d (digits_lt hd)

/-- Encoding the integer that valid characters spell gives the characters (42_base32.md R204). -/
theorem encodeChars_digitsValue {cs : List Byte} (h : ∀ c ∈ cs, (decodeAt c).toNat < 32) :
    encodeChars cs.length (digitsValue (cs.map decodeAt)) = cs := by
  have hd := digits_digitsValue (ds := cs.map decodeAt) (by simpa using h)
  rw [List.length_map] at hd
  rw [encodeChars, hd, List.map_map, List.map_map]
  conv_rhs => rw [← List.map_id cs]
  exact List.map_congr_left fun c hc => alphabetAt_decodeAt c (h c hc)

/-! ### Validity -/

theorem firstInvalid_eq_none {ds : List Byte} {n : Nat} :
    firstInvalid ds n = none ↔ ∀ d ∈ ds, d.toNat < 32 := by
  induction ds generalizing n with
  | nil => simp [firstInvalid]
  | cons d ds ih =>
    by_cases h : d.toNat ≥ 32
    · simp [firstInvalid, h]
    · simp [firstInvalid, h, ih, Nat.lt_of_not_le h]

/-- The first invalid digit, counted from `n`: the lowest lane first (42_base32.md R203). -/
theorem firstInvalid_eq_some {ds : List Byte} {n j : Nat} (hj : j < ds.length) (hinv : 32 ≤ (ds.getD j 0).toNat)
    (hval : ∀ i < j, (ds.getD i 0).toNat < 32) : firstInvalid ds n = some (n + j) := by
  induction ds generalizing n j with
  | nil => simp at hj
  | cons d ds ih =>
    cases j with
    | zero => simp [firstInvalid, show 32 ≤ d.toNat by simpa using hinv]
    | succ j =>
      have h0 : ¬ 32 ≤ d.toNat := by simpa using hval 0 (by omega)
      rw [firstInvalid, if_neg h0, ih (j := j) (by simpa using hj) (by simpa using hinv)
        fun i hi => by simpa using hval (i + 1) (by omega)]
      congr 1
      omega

/-! ### Lanes -/

theorem laneList_eq_map (a : Lanes) {n : Nat} (h : n ≤ 16) : laneList a n = (List.range n).map (lane a) := by
  apply List.ext_getElem
  · simp
    omega
  · intro i h1 h2
    simp only [laneList_length] at h1
    have : i < 16 := by omega
    simp [laneList, lane, this]

/-- The digits B32_DEC reads, lane by lane (42_base32.md R197). -/
theorem decodedLanes (a : Lanes) {n : Nat} (h : n ≤ 16) :
    (laneList a n).map decodeAt = (List.range n).map fun j => decodeAt (lane a j) := by
  rw [laneList_eq_map _ h, List.map_map]
  rfl

/-- Character `j` of a text is the alphabet's entry for digit `j` (42_base32.md R192). -/
theorem encodeChars_getD {k v j : Nat} (h : j < k) :
    (encodeChars k v).getD j 0#8 = alphabetAt (v / 32 ^ (k - 1 - j) % 32) := by
  rw [encodeChars, List.getD_eq_getElem?_getD, List.getElem?_map, digits_getElem h]
  rfl

theorem firstInvalid_lanes_none {a : Lanes} {n : Nat} (h : n ≤ 16)
    (hv : ∀ j < n, (decodeAt (lane a j)).toNat < 32) : firstInvalid ((laneList a n).map decodeAt) 0 = none := by
  rw [firstInvalid_eq_none, decodedLanes a h]
  simpa using hv

theorem firstInvalid_lanes_some {a : Lanes} {n j : Nat} (h : n ≤ 16) (hj : j < n)
    (hv : ∀ i < j, (decodeAt (lane a i)).toNat < 32) (hi : 32 ≤ (decodeAt (lane a j)).toNat) :
    firstInvalid ((laneList a n).map decodeAt) 0 = some j := by
  have hg : ∀ i < n, ((laneList a n).map decodeAt).getD i 0 = decodeAt (lane a i) := by
    intro i hi
    rw [decodedLanes a h]
    simp [hi]
  have hs := firstInvalid_eq_some (ds := (laneList a n).map decodeAt) (n := 0) (j := j) (by simp; omega)
    (by rw [hg _ hj]; exact hi) (fun i h => by rw [hg _ (by omega)]; exact hv i h)
  rwa [Nat.zero_add] at hs

theorem lanesValue_lt {a : Lanes} {n : Nat} (h : n ≤ 16) (hv : ∀ j < n, (decodeAt (lane a j)).toNat < 32) :
    digitsValue ((laneList a n).map decodeAt) < 32 ^ n := by
  have hlt := digitsValue_lt (ds := (laneList a n).map decodeAt) (by rw [decodedLanes a h]; simpa using hv)
  rwa [List.length_map, laneList_length, Nat.min_eq_left h] at hlt

/-- The integer spelled by `n` lanes of digits, as a sum (42_base32.md R197). -/
theorem digitsValue_range (f : Nat → Byte) (n : Nat) :
    digitsValue ((List.range n).map f) = ((List.range n).map fun j => (f j).toNat * 32 ^ (n - 1 - j)).sum := by
  induction n with
  | zero => rfl
  | succ n ih =>
    rw [List.range_succ, List.map_append, List.map_singleton, digitsValue_append_singleton, ih, List.map_append,
      List.sum_append]
    simp only [List.map_singleton, List.sum_singleton, Nat.add_sub_cancel, Nat.sub_self, pow_zero, Nat.mul_one]
    rw [← List.sum_map_mul_right]
    congr 2
    apply List.map_congr_left
    intro j hj
    have := List.mem_range.1 hj
    rw [show n - j = (n - 1 - j) + 1 by omega, pow_succ]
    ring

theorem excessBits_eq {v : Nat} (h : v < 2 ^ 50) : excessBits v = v / 2 ^ 48 := by
  rw [excessBits, Nat.shiftRight_eq_div_pow]
  omega

/-! ### B32_DEC by case -/

/-- Ten valid characters: the two cases of the excess bits are left (42_base32.md R198, R202). -/
theorem execB32Dec_ten {s : State} (hv : ∀ j < 10, (decodeAt (lane s.cmd.a j)).toNat < 32) :
    execB32Dec 10 s = decoded10 (digitsValue ((laneList s.cmd.a 10).map decodeAt)) s := by
  rw [execB32Dec, if_neg (by omega), decodeDigits, firstInvalid_lanes_none (by omega) hv]
  rfl

/-- Sixteen valid characters (42_base32.md R199). -/
theorem execB32Dec_sixteen {s : State} (hv : ∀ j < 16, (decodeAt (lane s.cmd.a j)).toNat < 32) :
    execB32Dec 16 s = decoded16 (digitsValue ((laneList s.cmd.a 16).map decodeAt)) s := by
  rw [execB32Dec, if_neg (by omega), decodeDigits, firstInvalid_lanes_none (by omega) hv]
  rfl

/-- A text B32_ENC wrote is valid and spells the integer it came from (42_base32.md R204). -/
theorem text_spells {a : Lanes} {k v : Nat} (hk : k ≤ 16) (h : a = lanesOf (encodeChars k v)) :
    (∀ j < k, (decodeAt (lane a j)).toNat < 32) ∧ digitsValue ((laneList a k).map decodeAt) = v % 32 ^ k := by
  have hmap : (laneList a k).map decodeAt = (digits k v).map (BitVec.ofNat 8) := by
    rw [h, laneList_lanesOf_length (encodeChars_length _ _) hk, map_decodeAt_encodeChars]
  refine ⟨fun j hj => ?_, by rw [hmap, digitsValue_digits]⟩
  rw [h, lane_lanesOf _ (by omega), encodeChars_getD hj, decodeAt_alphabetAt _ (Nat.mod_lt _ (by decide)),
    BitVec.toNat_ofNat]
  omega

theorem be_laneList_lt (a : Lanes) {n : Nat} (h : n ≤ 16) : be (laneList a n) < 256 ^ n := by
  have hlt := be_lt (laneList a n)
  rwa [laneList_length, Nat.min_eq_left h] at hlt

end Sys2Proof.Machine
end

