-- ==== Sys2Proof/Laws/Decode.lean ====
section
/-! SUPPORT. The fields of a word as integers, and what the decoder can answer (30_encoding.md R80, R92). -/

namespace Sys2Proof

theorem append_toNat {m n : Nat} (x : BitVec m) (y : BitVec n) : (x ++ y).toNat = x.toNat * 2 ^ n + y.toNat := by
  rw [BitVec.toNat_append, Nat.shiftLeft_eq, Nat.mul_comm, Nat.two_pow_add_eq_or_of_lt y.isLt]

theorem opcOf_toNat (w : CmdWord) : (opcOf w).toNat = w.toNat % 256 := by simp [opcOf]

theorem lenOf_toNat (w : CmdWord) : (lenOf w).toNat = w.toNat / 256 % 32 := by
  simp [lenOf, Nat.shiftRight_eq_div_pow]

theorem rsvOf_toNat (w : CmdWord) : (rsvOf w).toNat = w.toNat / 8192 := by
  have := w.isLt
  simp only [rsvOf, BitVec.extractLsb'_toNat, Nat.shiftRight_eq_div_pow]
  omega

theorem encode_toNat (i : Instr) : (encode i).toNat = lenField i % 32 * 256 + (opcode i).toNat := by
  have h := append_toNat (0#19 ++ BitVec.ofNat 5 (lenField i)) (opcode i)
  have h2 := append_toNat 0#19 (BitVec.ofNat 5 (lenField i))
  rw [BitVec.toNat_ofNat, BitVec.toNat_ofNat, Nat.zero_mod, Nat.zero_mul, Nat.zero_add] at h2
  rw [h2] at h
  exact h

/-- The fields of an encoded command are its operation code, its length operand and 0. -/
theorem fields_of_encode (i : Instr) :
    opcOf (encode i) = opcode i ∧ lenOf (encode i) = BitVec.ofNat 5 (lenField i) ∧ rsvOf (encode i) = 0#19 := by
  have h := encode_toNat i
  have h2 := (opcode i).isLt
  refine ⟨BitVec.eq_of_toNat_eq ?_, BitVec.eq_of_toNat_eq ?_, BitVec.eq_of_toNat_eq ?_⟩
  · rw [opcOf_toNat]; omega
  · rw [lenOf_toNat, BitVec.toNat_ofNat]; omega
  · rw [rsvOf_toNat, BitVec.toNat_ofNat]; omega

theorem decodeFixed_cases {o : Byte} {i : Instr} (h : decodeFixed o = some i) :
    opcode i = o ∧ lenField i = 0 ∧ wellFormed i = true := by
  have key : ∀ o : Byte, ∀ i ∈ decodeFixed o, opcode i = o ∧ lenField i = 0 ∧ wellFormed i = true := by decide
  exact key o i h

theorem decodeCodec_cases {o : Byte} {n : Nat} {i : Instr} (hn : n < 32) (h : decodeCodec o n = some i) :
    opcode i = o ∧ lenField i = n ∧ wellFormed i = true := by
  unfold decodeCodec at h
  split_ifs at h <;> cases h <;> exact ⟨by simp [*, opcode], rfl, by simpa [wellFormed]⟩

/-- What a decoded word is, as an integer: nothing but the command's length operand and operation code. -/
theorem decode_cases {w : CmdWord} {i : Instr} (h : decode w = some i) :
    wellFormed i = true ∧ w.toNat = lenField i * 256 + (opcode i).toNat := by
  have ho := opcOf_toNat w
  have hl := lenOf_toNat w
  have hr := rsvOf_toNat w
  have hw := w.isLt
  unfold decode at h
  split at h
  · cases h
  · next h0 =>
    have h0 : (rsvOf w).toNat = 0 := by simp only [ne_eq, Decidable.not_not] at h0; simp [h0]
    split at h
    · next j hj =>
      cases h
      obtain ⟨h1, h2, h3⟩ := decodeCodec_cases (lenOf w).isLt hj
      exact ⟨h3, by rw [h1, h2]; omega⟩
    · split at h
      · next hl0 =>
        obtain ⟨h1, h2, h3⟩ := decodeFixed_cases h
        have : (lenOf w).toNat = 0 := by simp [hl0]
        exact ⟨h3, by rw [h1, h2]; omega⟩
      · cases h

end Sys2Proof
end

