-- ==== Sys2Proof/Laws/Monotonic.lean ====
section
/-! SUPPORT. The MC unit: what MC_NEXT can do, and how any command moves the counter (41_monotonic.md). -/

namespace Sys2Proof.Machine

/-- MC_NEXT draws fresh exactly when the counter is unprimed or the sampled millisecond is later, as signed integers
(41_monotonic.md R171). -/
theorem drawsFresh_iff {mc : McUnit} {m : U64} :
    drawsFresh mc m = true ↔ mc.primed = false ∨ mc.lastMillis.toInt < m.toInt := by
  simp [drawsFresh]

theorem carryOut_incremented (r : BitVec 80) : carryOut (incremented r) = 1 ↔ r.toNat + 1 = 2 ^ 80 := by
  have := r.isLt
  rw [carryOut, incremented, Nat.shiftRight_eq_div_pow]
  omega

theorem incremented_toNat {r : BitVec 80} (h : r.toNat + 1 ≠ 2 ^ 80) :
    (BitVec.ofNat 80 (incremented r)).toNat = r.toNat + 1 := by
  have := r.isLt
  rw [BitVec.toNat_ofNat, incremented]
  exact Nat.mod_eq_of_lt (by omega)

/-- A fresh draw is below `2^(80 - P_HEADROOM)` (41_monotonic.md R172). -/
theorem withHeadroom_toNat (h : Nat) (r : BitVec 80) : (withHeadroom h r).toNat = r.toNat % 2 ^ (80 - h) :=
  and_ones_toNat r (by omega)

/-- What MC_NEXT answers with when it succeeds: the counter it leaves. -/
theorem randomnessOf_answer {mc : McUnit} {w0 w1 w2 : U64} :
    randomnessOf ⟨⟨lanesOf (bytes10 mc.lastRand), w0, w1, w2⟩, 0, 0⟩ = mc.lastRand.toNat := by
  have h := laneList_lanesOf_length (bytes_length 10 mc.lastRand.toNat) (by decide)
  show be (laneList (lanesOf (bytes 10 mc.lastRand.toNat)) 10) = _
  rw [h]
  exact be_bytes10 _

/-- The state MC_NEXT leaves when it succeeds with counter `mc`. -/
structure Advanced (s t : State) (c : McUnit) : Prop where
  mc : t.mc = c
  resp : t.resp = ⟨⟨lanesOf (bytes10 c.lastRand), s.ports.millisIn, c.lastMillis, 0⟩, 0, 0⟩

/-- MC_NEXT's answer, as a state. -/
theorem answerNext_eq (m : U64) (c : McUnit) (s : State) :
    answerNext m c s = .next (okState { s with mc := c } ⟨lanesOf (bytes10 c.lastRand), m, c.lastMillis, 0⟩) := rfl

theorem answerNext_advanced {s s' t : State} {c : McUnit} (h : answerNext s.ports.millisIn c s' = .next t) :
    Advanced s t c := by
  rw [answerNext_eq] at h
  obtain rfl := Host.Outcome.next.inj h
  constructor <;> simp only [okState_mc, okState_resp]

/-- Everything MC_NEXT can do: a fresh draw, an increment, or RandomnessExhausted with no MC state written
(41_monotonic.md R170 to R174). -/
theorem execMcNext_cases {s t : State} (h : execMcNext s = .next t) :
    ((s.mc.primed = false ∨ s.mc.lastMillis.toInt < s.ports.millisIn.toInt) ∧
      Advanced s t ⟨true, s.ports.millisIn, withHeadroom s.build.headroom.val (randSample s)⟩) ∨
    (s.mc.primed = true ∧ s.ports.millisIn.toInt ≤ s.mc.lastMillis.toInt ∧ s.mc.lastRand.toNat + 1 ≠ 2 ^ 80 ∧
      Advanced s t ⟨true, s.mc.lastMillis, BitVec.ofNat 80 (incremented s.mc.lastRand)⟩) ∨
    (s.mc.primed = true ∧ s.ports.millisIn.toInt ≤ s.mc.lastMillis.toInt ∧ s.mc.lastRand.toNat + 1 = 2 ^ 80 ∧
      t.mc = s.mc ∧ t.resp.err = 6 ∧ t.resp.info = 0) := by
  unfold execMcNext at h
  by_cases hf : drawsFresh s.mc (millisSample s) = true
  · rw [if_pos hf] at h
    exact .inl ⟨drawsFresh_iff.1 hf, answerNext_advanced h⟩
  · rw [if_neg hf, incrementDraw] at h
    have hp : s.mc.primed = true ∧ s.ports.millisIn.toInt ≤ s.mc.lastMillis.toInt := by
      rw [drawsFresh_iff, not_or, Int.not_lt, Bool.not_eq_false] at hf
      exact hf
    by_cases hc : carryOut (incremented (millisSampled s).mc.lastRand) = 1
    · rw [if_pos hc, raise_eq] at h
      obtain rfl := Host.Outcome.next.inj h
      refine .inr (.inr ⟨hp.1, hp.2, (carryOut_incremented _).1 hc, ?_⟩)
      simp [errCode]
    · rw [if_neg hc] at h
      have ha := answerNext_advanced (s := s) h
      simp only [millisSampled_mc, hp.1] at ha hc
      exact .inr (.inl ⟨hp.1, hp.2, fun e => hc ((carryOut_incremented _).2 e), ha⟩)

/-- The counter never goes back: a later millisecond, or the same one with no smaller randomness. -/
structure CounterLe (a b : McUnit) : Prop where
  primed : b.primed = true
  le : a.lastMillis.toInt < b.lastMillis.toInt ∨
    (a.lastMillis = b.lastMillis ∧ a.lastRand.toNat ≤ b.lastRand.toNat)

theorem counterLe_refl {a : McUnit} (h : a.primed = true) : CounterLe a a := ⟨h, .inr ⟨rfl, le_rfl⟩⟩

theorem counterLe_trans {a b c : McUnit} (h : CounterLe a b) (h' : CounterLe b c) : CounterLe a c := by
  refine ⟨h'.primed, ?_⟩
  rcases h.le with h1 | ⟨h1, h2⟩ <;> rcases h'.le with h3 | ⟨h3, h4⟩
  · exact .inl (h1.trans h3)
  · exact .inl (h3 ▸ h1)
  · exact .inl (h1 ▸ h3)
  · exact .inr ⟨h1.trans h3, h2.trans h4⟩

theorem counterLe_millis {a b : McUnit} (h : CounterLe a b) : a.lastMillis.toInt ≤ b.lastMillis.toInt := by
  rcases h.le with h1 | ⟨h1, -⟩
  · exact h1.le
  · exact h1 ▸ le_rfl

/-- A successful MC_NEXT on a primed counter moves it strictly forward (41_monotonic.md R177, R179). -/
theorem execMcNext_forward {s t : State} (h : execMcNext s = .next t) (hp : s.mc.primed = true)
    (hok : t.resp.err = 0) :
    CounterLe s.mc t.mc ∧ (s.mc.lastMillis.toInt < t.mc.lastMillis.toInt ∨
      (s.mc.lastMillis = t.mc.lastMillis ∧ s.mc.lastRand.toNat < t.mc.lastRand.toNat)) := by
  rcases execMcNext_cases h with ⟨hf, a⟩ | ⟨-, -, hn, a⟩ | ⟨-, -, -, -, he, -⟩
  · have hlt := hf.resolve_left (by simp [hp])
    exact ⟨⟨by rw [a.mc], .inl (by rw [a.mc]; exact hlt)⟩, .inl (by rw [a.mc]; exact hlt)⟩
  · have hi := incremented_toNat hn
    refine ⟨⟨by rw [a.mc], .inr ⟨by rw [a.mc], ?_⟩⟩, .inr ⟨by rw [a.mc], ?_⟩⟩ <;> rw [a.mc] <;> simp only [hi] <;> omega
  · exact absurd (he.symm.trans hok) (by decide)

/-- A command other than a successful MC_NEXT or MC_SETSTATE leaves the counter (20_memory.md R64, R66). -/
theorem request_mc {r : Request} {s u : State} (h : execPresented (present r s) = .next u)
    (hb : ¬ writesCounter r u) : u.mc = s.mc := by
  cases hd : decode r.command.word with
  | none =>
    rw [execPresented_of_illegal (s := present r s) hd] at h
    obtain rfl := Host.Outcome.next.inj h
    rfl
  | some i =>
    rw [execPresented_present hd] at h
    by_cases herr : u.resp.err = 0
    · refine (unit_unwritten h).2 fun hw => hb ⟨herr, ?_⟩
      cases i <;> simp_all [mayWrite, unitOf, readOnly]
    · exact (unit_of_error h herr).2

/-- Any command but a successful MC_SETSTATE moves a primed counter forward or leaves it. -/
theorem request_counterLe {r : Request} {s u : State} (h : execPresented (present r s) = .next u)
    (hp : s.mc.primed = true) (hb : ¬ forcesCounter r u) : CounterLe s.mc u.mc := by
  by_cases hw : writesCounter r u
  · obtain ⟨herr, hd | hd⟩ := hw
    · rw [execPresented_present hd] at h
      exact (execMcNext_forward (s := present r s) h hp herr).1
    · exact absurd ⟨herr, hd⟩ hb
  · rw [request_mc h hw]
    exact counterLe_refl hp

/-- So does any run of commands without a successful MC_SETSTATE. -/
theorem run_counterLe {rs : List Request} {s t : State} (h : RunAvoiding forcesCounter rs s t)
    (hp : s.mc.primed = true) : CounterLe s.mc t.mc := by
  induction rs generalizing s with
  | nil => rw [show t = s from h]; exact counterLe_refl hp
  | cons r rs ih =>
    obtain ⟨u, h1, h2, h3⟩ := h
    have hsu := request_counterLe h1 hp h2
    exact counterLe_trans hsu (ih h3 hsu.primed)

/-- The ten randomness bytes MC_NEXT answers with are the counter it leaves. -/
theorem randomnessOf_advanced {s t : State} {c : McUnit} (h : Advanced s t c) :
    randomnessOf t.resp = c.lastRand.toNat := by
  rw [h.resp]
  exact randomnessOf_answer

/-- A run without a successful MC_NEXT or MC_SETSTATE leaves the counter. -/
theorem run_mc {rs : List Request} {s t : State} (h : RunAvoiding writesCounter rs s t) : t.mc = s.mc := by
  induction rs generalizing s with
  | nil => rw [show t = s from h]
  | cons r rs ih =>
    obtain ⟨u, h1, h2, h3⟩ := h
    rw [ih h3, request_mc h1 h2]

end Sys2Proof.Machine
end

