-- ==== Sys2Proof/Laws/PerInstr.lean ====
section
/-! SUPPORT. One law per command: the shape of its word (30_encoding.md R80, R82, R84). -/

namespace Sys2Proof.Laws.EncodingShape

open Sys2Proof

/-- The word of a well-formed command holds its operation code in `OPC`, its length operand in `LEN` and 0 in `RSV`;
only the B32 commands may have a `LEN` other than 0. -/
def Statement (i : Instr) : Prop :=
  wellFormed i = true →
    opcOf (encode i) = opcode i ∧ (lenOf (encode i)).toNat = lenField i ∧ rsvOf (encode i) = 0#19 ∧
      (unitOf i ≠ .b32 → lenField i = 0)

theorem of_lt {i : Instr} (hlen : wellFormed i = true → lenField i < 32) (h0 : unitOf i ≠ .b32 → lenField i = 0) :
    Statement i := by
  intro hi
  obtain ⟨h1, h2, h3⟩ := fields_of_encode i
  refine ⟨h1, ?_, h3, h0⟩
  rw [h2, BitVec.toNat_ofNat]
  exact Nat.mod_eq_of_lt (hlen hi)

theorem nop : Statement .nop := of_lt (fun _ => by decide) (fun _ => rfl)
theorem sfConfig : Statement .sfConfig := of_lt (fun _ => by decide) (fun _ => rfl)
theorem sfCreate : Statement .sfCreate := of_lt (fun _ => by decide) (fun _ => rfl)
theorem sfDecode : Statement .sfDecode := of_lt (fun _ => by decide) (fun _ => rfl)
theorem sfQcap : Statement .sfQcap := of_lt (fun _ => by decide) (fun _ => rfl)
theorem sfQmask : Statement .sfQmask := of_lt (fun _ => by decide) (fun _ => rfl)
theorem sfQlayout : Statement .sfQlayout := of_lt (fun _ => by decide) (fun _ => rfl)
theorem sfGetstate : Statement .sfGetstate := of_lt (fun _ => by decide) (fun _ => rfl)
theorem sfSetstate : Statement .sfSetstate := of_lt (fun _ => by decide) (fun _ => rfl)
theorem mcNext : Statement .mcNext := of_lt (fun _ => by decide) (fun _ => rfl)
theorem mcGetstate : Statement .mcGetstate := of_lt (fun _ => by decide) (fun _ => rfl)
theorem mcSetstate : Statement .mcSetstate := of_lt (fun _ => by decide) (fun _ => rfl)
theorem b32Enc (len : Nat) : Statement (.b32Enc len) := of_lt of_decide_eq_true (absurd rfl)
theorem b32Dec (len : Nat) : Statement (.b32Dec len) := of_lt of_decide_eq_true (absurd rfl)

end Sys2Proof.Laws.EncodingShape
end

