-- ==== Sys2Proof/Laws/Same.lean ====
section
/-! SUPPORT. Two states that agree on what a command reads end it alike (10_state.md R38, R40, 20_memory.md R64):
said once, for repeating, for ignored operands and for the independence of the units. -/

namespace Sys2Proof.Machine

/-- Two answers carry the same response, and the same units as far as `eqSf` and `eqMc` ask. -/
def SameEnd (eqSf eqMc : Prop) (o o' : Result) : Prop :=
  ∃ t t', o = .next t ∧ o' = .next t' ∧ t'.resp = t.resp ∧ (eqSf → t'.sf = t.sf) ∧ (eqMc → t'.mc = t.mc)

variable {eqSf eqMc : Prop} {s s' t t' : State}

theorem sameEnd_respond {p p' : Payload} (hp : p' = p) (hsf : eqSf → t'.sf = t.sf) (hmc : eqMc → t'.mc = t.mc) :
    SameEnd eqSf eqMc (respond p t) (respond p' t') :=
  ⟨_, _, rfl, rfl, by rw [hp], hsf, hmc⟩

theorem sameEnd_raise {e : ErrKind} {i i' : Byte} (hi : i' = i) (hsf : eqSf → t'.sf = t.sf)
    (hmc : eqMc → t'.mc = t.mc) : SameEnd eqSf eqMc (raise e i t) (raise e i' t') :=
  ⟨_, _, rfl, rfl, by rw [hi], hsf, hmc⟩

theorem sameEnd_ite {c c' : Prop} [Decidable c] [Decidable c'] {a a' b b' : Result} (hc : c' ↔ c)
    (ha : SameEnd eqSf eqMc a a') (hb : SameEnd eqSf eqMc b b') :
    SameEnd eqSf eqMc (if c then a else b) (if c' then a' else b') := by
  by_cases h : c
  · simpa [h, hc] using ha
  · simpa [h, hc] using hb

theorem sameEnd_gated {k : State → Result} (hsf : s'.sf = s.sf) (hmc : eqMc → s'.mc = s.mc)
    (h : SameEnd eqSf eqMc (k s) (k s')) : SameEnd eqSf eqMc (gated s k) (gated s' k) := by
  unfold gated
  exact sameEnd_ite (by rw [hsf]) h (sameEnd_raise rfl (fun _ => hsf) hmc)

theorem execSfCreate_same (hin : s.ports.tickIn = s'.ports.tickIn) (hsf : s'.sf = s.sf)
    (hmc : eqMc → s'.mc = s.mc) : SameEnd eqSf eqMc (execSfCreate s) (execSfCreate s') := by
  refine sameEnd_gated hsf hmc ?_
  simp only [createFrom, mint, tickSample, tickSampled_sf, ← hin, hsf]
  refine sameEnd_ite Iff.rfl (sameEnd_raise rfl (fun _ => hsf) hmc) ?_
  refine sameEnd_ite Iff.rfl (sameEnd_raise rfl (fun _ => hsf) hmc) ?_
  refine sameEnd_ite Iff.rfl ?_ (sameEnd_respond rfl (fun _ => rfl) hmc)
  exact sameEnd_ite Iff.rfl (sameEnd_raise rfl (fun _ => hsf) hmc) (sameEnd_respond rfl (fun _ => rfl) hmc)

theorem execMcNext_same (h1 : s.ports.millisIn = s'.ports.millisIn) (h2 : s.ports.randIn = s'.ports.randIn)
    (hsf : eqSf → s'.sf = s.sf) (hmc : s'.mc = s.mc) (hb : s'.build = s.build) :
    SameEnd eqSf eqMc (execMcNext s) (execMcNext s') := by
  simp only [execMcNext, freshDraw, incrementDraw, answerNext, millisSample, randSample, ← h1, ← h2, hmc,
    millisSampled_mc, millisSampled_ports, millisSampled_build, hb]
  refine sameEnd_ite Iff.rfl (sameEnd_respond rfl hsf (fun _ => rfl)) ?_
  exact sameEnd_ite Iff.rfl (sameEnd_raise rfl hsf (fun _ => hmc)) (sameEnd_respond rfl hsf (fun _ => rfl))

theorem execB32Dec_same {n : Nat} (hin : laneList s.cmd.a n = laneList s'.cmd.a n) (hsf : eqSf → s'.sf = s.sf)
    (hmc : eqMc → s'.mc = s.mc) (hb : s'.build = s.build) :
    SameEnd eqSf eqMc (execB32Dec n s) (execB32Dec n s') := by
  simp only [execB32Dec, ← hin]
  refine sameEnd_ite Iff.rfl (sameEnd_raise rfl hsf hmc) ?_
  unfold decodeDigits
  split
  · exact sameEnd_raise rfl hsf hmc
  · refine sameEnd_ite Iff.rfl ?_ (sameEnd_respond rfl hsf hmc)
    simp only [decoded10, hb]
    exact sameEnd_ite Iff.rfl (sameEnd_raise rfl hsf hmc) (sameEnd_respond rfl hsf hmc)

/-- A command's response and its own unit depend on its named inputs, its own unit and the build alone. -/
theorem exec_same {i : Instr} (hin : SameInputs i s s') (hsf : unitOf i = .sf ∨ eqSf → s'.sf = s.sf)
    (hmc : unitOf i = .mc ∨ eqMc → s'.mc = s.mc) (hb : s'.build = s.build) :
    SameEnd eqSf eqMc (exec i s) (exec i s') := by
  have wsf : eqSf → s'.sf = s.sf := fun h => hsf (.inr h)
  have wmc : eqMc → s'.mc = s.mc := fun h => hmc (.inr h)
  cases i with
  | nop => exact sameEnd_respond rfl wsf wmc
  | sfConfig =>
    have hin : s.cmd.b = s'.cmd.b := hin
    simp only [exec, execSfConfig, ← hin]
    exact sameEnd_ite Iff.rfl (sameEnd_raise rfl wsf wmc) (sameEnd_respond rfl (fun _ => rfl) wmc)
  | sfCreate => exact execSfCreate_same hin (hsf (.inl rfl)) wmc
  | sfDecode =>
    have hin : s.cmd.b = s'.cmd.b := hin
    simp only [exec, execSfDecode]
    refine sameEnd_gated (hsf (.inl rfl)) wmc ?_
    exact sameEnd_respond (by rw [hsf (.inl rfl), hin]) wsf wmc
  | sfQcap =>
    simp only [exec, execSfQcap]
    refine sameEnd_gated (hsf (.inl rfl)) wmc ?_
    exact sameEnd_respond (by rw [hsf (.inl rfl)]) wsf wmc
  | sfQmask =>
    simp only [exec, execSfQmask]
    refine sameEnd_gated (hsf (.inl rfl)) wmc ?_
    exact sameEnd_respond (by rw [hsf (.inl rfl)]) wsf wmc
  | sfQlayout =>
    simp only [exec, execSfQlayout]
    refine sameEnd_gated (hsf (.inl rfl)) wmc ?_
    exact sameEnd_respond (by rw [hsf (.inl rfl)]) wsf wmc
  | sfGetstate => exact sameEnd_respond (by rw [hsf (.inl rfl)]) wsf wmc
  | sfSetstate =>
    have hin : s.cmd.b = s'.cmd.b ∧ s.cmd.c = s'.cmd.c := hin
    simp only [exec, execSfSetstate]
    refine sameEnd_gated (hsf (.inl rfl)) wmc ?_
    simp only [← hin.1, ← hin.2, hsf (.inl rfl)]
    exact sameEnd_ite Iff.rfl (sameEnd_raise rfl wsf wmc) (sameEnd_respond rfl (fun _ => rfl) wmc)
  | mcNext => exact execMcNext_same hin.1 hin.2 wsf (hmc (.inl rfl)) hb
  | mcGetstate => exact sameEnd_respond (by rw [hmc (.inl rfl)]) wsf wmc
  | mcSetstate =>
    have hin : laneList s.cmd.a 10 = laneList s'.cmd.a 10 ∧ s.cmd.b = s'.cmd.b ∧ s.cmd.c = s'.cmd.c := hin
    simp only [exec, execMcSetstate, setstateExcess, setstatePrimed, setstateRand, ← hin.1, ← hin.2.1, ← hin.2.2]
    exact sameEnd_ite Iff.rfl (sameEnd_raise rfl wsf wmc) (sameEnd_respond rfl wsf (fun _ => rfl))
  | b32Enc n =>
    have hin : laneList s.cmd.a n = laneList s'.cmd.a n := hin
    simp only [exec, execB32Enc, ← hin]
    exact sameEnd_ite Iff.rfl (sameEnd_raise rfl wsf wmc) (sameEnd_respond rfl wsf wmc)
  | b32Dec n => exact execB32Dec_same hin wsf wmc hb

/-- Two states with the same record and ports give a command the same inputs. -/
theorem sameInputs_of_eq {i : Instr} (hc : s'.cmd = s.cmd) (hp : s'.ports = s.ports) : SameInputs i s s' := by
  cases i <;> simp [SameInputs, hc, hp]

end Sys2Proof.Machine
end

