-- ==== Sys2Proof/Laws/Snowflake.lean ====
section
/-! SUPPORT. The SF unit's derived values and checks as arithmetic (10_state.md R29, 40_bitpack.md R121 to R137). -/

namespace Sys2Proof.Machine

/-! ### Derived values -/

theorem maskTime_toNat (sf : SfUnit) : (maskTime sf).toNat = 2 ^ sf.tsBits.toNat - 1 :=
  ones_toNat (by have := sf.tsBits.isLt; omega)

theorem maskGenerator_toNat (sf : SfUnit) : (maskGenerator sf).toNat = 2 ^ sf.genBits.toNat - 1 :=
  ones_toNat (by have := sf.genBits.isLt; omega)

theorem maskSequence_toNat (sf : SfUnit) : (maskSequence sf).toNat = 2 ^ sf.seqBits.toNat - 1 :=
  ones_toNat (by have := sf.seqBits.isLt; omega)

/-- A masked tick is the tick modulo `2^SF_TS_BITS` (40_bitpack.md R123). -/
theorem masked_toNat (x : U64) (sf : SfUnit) : (x &&& maskTime sf).toNat = x.toNat % 2 ^ sf.tsBits.toNat :=
  and_ones_toNat _ (by have := sf.tsBits.isLt; omega)

theorem toInt_of_lt_two_pow {x : U64} {n : Nat} (h : x.toNat < 2 ^ n) (hn : n ≤ 63) : x.toInt = x.toNat := by
  have h1 : 2 ^ n ≤ 2 ^ 63 := Nat.pow_le_pow_right (by decide) hn
  exact BitVec.toInt_eq_toNat_of_lt (by omega)

theorem masked_toInt (x : U64) (sf : SfUnit) :
    (x &&& maskTime sf).toInt = ((x.toNat % 2 ^ sf.tsBits.toNat : Nat) : Int) := by
  have htb := sf.tsBits.isLt
  have hlt := Nat.mod_lt x.toNat (Nat.two_pow_pos sf.tsBits.toNat)
  rw [← masked_toNat] at hlt ⊢
  exact toInt_of_lt_two_pow hlt (by omega)

theorem masked_le (x : U64) (sf : SfUnit) : (x &&& maskTime sf).toInt ≤ 2 ^ sf.tsBits.toNat - 1 := by
  rw [masked_toInt]
  have hlt := Nat.mod_lt x.toNat (Nat.two_pow_pos sf.tsBits.toNat)
  have : ((x.toNat % 2 ^ sf.tsBits.toNat : Nat) : Int) < ((2 ^ sf.tsBits.toNat : Nat) : Int) := by exact_mod_cast hlt
  push_cast at this ⊢
  omega

theorem maskTime_toInt (sf : SfUnit) : (maskTime sf).toInt = 2 ^ sf.tsBits.toNat - 1 := by
  have htb := sf.tsBits.isLt
  have h1 := maskTime_toNat sf
  have : 2 ^ sf.tsBits.toNat ≤ 2 ^ 63 := Nat.pow_le_pow_right (by omega) (by omega)
  have := Nat.two_pow_pos sf.tsBits.toNat
  rw [BitVec.toInt_eq_toNat_of_lt (by omega), h1, Nat.cast_sub (by omega)]
  simp

/-! ### Fields of an id -/

theorem timeField_toNat (sf : SfUnit) (id : U64) :
    (timeField sf id).toNat = id.toNat / 2 ^ (sf.genBits.toNat + sf.seqBits.toNat) % 2 ^ sf.tsBits.toNat := by
  rw [timeField, masked_toNat, BitVec.toNat_ushiftRight, Nat.shiftRight_eq_div_pow, shiftTime]

theorem generatorField_toNat (sf : SfUnit) (id : U64) :
    (generatorField sf id).toNat = id.toNat / 2 ^ sf.seqBits.toNat % 2 ^ sf.genBits.toNat := by
  rw [generatorField, maskGenerator, and_setWidth_ones_toNat _ (by omega) (by have := sf.genBits.isLt; omega),
    BitVec.toNat_ushiftRight, Nat.shiftRight_eq_div_pow, shiftGenerator]

theorem sequenceField_toNat (sf : SfUnit) (id : U64) :
    (sequenceField sf id).toNat = id.toNat % 2 ^ sf.seqBits.toNat := by
  rw [sequenceField, maskSequence, and_setWidth_ones_toNat _ (by omega) (by have := sf.seqBits.isLt; omega)]

/-! ### Checks -/

theorem checkBit_eq_zero {b : Bool} {v : Byte} (hv : v ≠ 0) : checkBit b v = 0 ↔ b = false := by
  cases b
  · simp [checkBit]
  · simpa [checkBit] using hv

theorem or_eq_zero_two {a b : Byte} : a ||| b = 0 ↔ a = 0 ∧ b = 0 := BitVec.or_eq_zero_iff

theorem or_eq_zero_five {a b c d e : Byte} :
    a ||| b ||| c ||| d ||| e = 0 ↔ a = 0 ∧ b = 0 ∧ c = 0 ∧ d = 0 ∧ e = 0 := by
  simp [BitVec.or_eq_zero_iff, and_assoc]

/-- The SF_CONFIG mask is 0 exactly when every check holds (40_bitpack.md R121). -/
theorem configViolations_eq_zero {b : U64} :
    configViolations b = 0 ↔
      (configTs b).toNat + (configGen b).toNat + (configSeq b).toNat = 63 ∧ (configGen b).toNat ≤ 31 ∧
        (configSeq b).toNat ≤ 31 ∧ (configGid b).toNat < 2 ^ (configGen b).toNat ∧ configCrsv b = 0 := by
  rw [configViolations, or_eq_zero_five, checkBit_eq_zero (by decide), checkBit_eq_zero (by decide),
    checkBit_eq_zero (by decide), checkBit_eq_zero (by decide), checkBit_eq_zero (by decide)]
  simp

/-- The SF_SETSTATE mask is 0 exactly when both ranges hold (40_bitpack.md R137). -/
theorem setstateViolations_eq_zero {sf : SfUnit} {lt sq : U64} :
    setstateViolations sf lt sq = 0 ↔
      -1 ≤ lt.toInt ∧ lt.toInt ≤ (maskTime sf).toInt ∧ sq.toNat ≤ (maskSequence sf).toNat := by
  rw [setstateViolations, or_eq_zero_two, checkBit_eq_zero (by decide), checkBit_eq_zero (by decide)]
  simp only [decide_eq_false_iff_not]
  omega

theorem configTs_toNat (b : U64) : (configTs b).toNat = b.toNat % 256 := by simp [configTs]

theorem configGen_toNat (b : U64) : (configGen b).toNat = b.toNat / 2 ^ 8 % 256 := by
  simp [configGen, Nat.shiftRight_eq_div_pow]

theorem configSeq_toNat (b : U64) : (configSeq b).toNat = b.toNat / 2 ^ 16 % 256 := by
  simp [configSeq, Nat.shiftRight_eq_div_pow]

theorem configCrsv_toNat (b : U64) : (configCrsv b).toNat = b.toNat / 2 ^ 24 % 256 := by
  simp [configCrsv, Nat.shiftRight_eq_div_pow]

theorem configGid_toNat (b : U64) : (configGid b).toNat = b.toNat / 2 ^ 32 := by
  have := b.isLt
  simp only [configGid, BitVec.extractLsb'_toNat, Nat.shiftRight_eq_div_pow]
  omega

/-! ### Minting -/

/-- What a successful SF_CREATE leaves: the masked tick as SF_LAST_TICK, the id packed from the new minting state, and
either the next sequence in the same tick or a later tick (40_bitpack.md R122 to R127). -/
theorem execSfCreate_minted {s t : State} (h : execSfCreate s = .next t) (hok : t.resp.err = 0) :
    s.sf.cfgValid = true ∧ t.sf.lastTick = tickSample s &&& maskTime s.sf ∧
    t.resp.payload.w0 = packId s.sf t.sf.lastTick s.sf.genId t.sf.sequence ∧
    ((t.sf = sameTick s.sf ∧ s.sf.sequence.toNat < (maskSequence s.sf).toNat) ∨
      (t.sf = newTick s.sf (tickSample s &&& maskTime s.sf) ∧
        s.sf.lastTick.toInt < (tickSample s &&& maskTime s.sf).toInt)) := by
  cases hc : s.sf.cfgValid
  · rw [execSfCreate, gated_of_invalid hc] at h
    obtain rfl := Host.Outcome.next.inj h
    simp at hok
  · rw [execSfCreate, gated_of_valid hc] at h
    simp only [createFrom, mint, respond_eq, raise_eq] at h
    split_ifs at h with h1 h2 h3 h4 <;> simp only [tickSampled_sf] at * <;> obtain rfl := Host.Outcome.next.inj h
    · simp [errCode] at hok
    · simp [errCode] at hok
    · simp [errCode] at hok
    · refine ⟨trivial, h3.symm, ?_, .inl ⟨rfl, by omega⟩⟩
      show packId _ (tickSample s &&& maskTime s.sf) _ _ = packId _ s.sf.lastTick _ _
      rw [h3]
      rfl
    · refine ⟨trivial, rfl, rfl, .inr ⟨rfl, ?_⟩⟩
      have : (tickSample s &&& maskTime s.sf).toInt ≠ s.sf.lastTick.toInt := fun e => h3 (BitVec.toInt_inj.1 e)
      omega

theorem sequence_succ {sf : SfUnit} (h : sf.sequence.toNat < (maskSequence sf).toNat) :
    (sf.sequence + 1).toNat = sf.sequence.toNat + 1 := by
  have := (maskSequence sf).isLt
  rw [BitVec.toNat_add]
  exact Nat.mod_eq_of_lt (by simp; omega)

/-- The same generator under the same layout, with a minting state that is not earlier. -/
structure MintLe (a b : SfUnit) : Prop where
  valid : b.cfgValid = a.cfgValid
  ts : b.tsBits = a.tsBits
  gen : b.genBits = a.genBits
  seq : b.seqBits = a.seqBits
  gid : b.genId = a.genId
  le : a.lastTick.toInt < b.lastTick.toInt ∨ (a.lastTick = b.lastTick ∧ a.sequence.toNat ≤ b.sequence.toNat)

theorem mintLe_refl (a : SfUnit) : MintLe a a := ⟨rfl, rfl, rfl, rfl, rfl, .inr ⟨rfl, le_rfl⟩⟩

theorem mintLe_trans {a b c : SfUnit} (h : MintLe a b) (h' : MintLe b c) : MintLe a c := by
  refine ⟨h'.valid.trans h.valid, h'.ts.trans h.ts, h'.gen.trans h.gen, h'.seq.trans h.seq, h'.gid.trans h.gid, ?_⟩
  rcases h.le with h1 | ⟨h1, h2⟩ <;> rcases h'.le with h3 | ⟨h3, h4⟩
  · exact .inl (h1.trans h3)
  · exact .inl (h3 ▸ h1)
  · exact .inl (h1 ▸ h3)
  · exact .inr ⟨h1.trans h3, h2.trans h4⟩

/-- A successful SF_CREATE moves the minting state strictly forward. -/
theorem execSfCreate_forward {s t : State} (h : execSfCreate s = .next t) (hok : t.resp.err = 0) :
    MintLe s.sf t.sf ∧ (s.sf.lastTick.toInt < t.sf.lastTick.toInt ∨
      (s.sf.lastTick = t.sf.lastTick ∧ s.sf.sequence.toNat < t.sf.sequence.toNat)) := by
  obtain ⟨-, -, -, ⟨h3, h4⟩ | ⟨h3, h4⟩⟩ := execSfCreate_minted h hok
  · have h5 := sequence_succ h4
    rw [h3]
    refine ⟨⟨rfl, rfl, rfl, rfl, rfl, .inr ⟨rfl, ?_⟩⟩, .inr ⟨rfl, ?_⟩⟩ <;> simp only [sameTick] <;> omega
  · rw [h3]
    exact ⟨⟨rfl, rfl, rfl, rfl, rfl, .inl h4⟩, .inl h4⟩

/-- The minting state a successful SF_CREATE leaves fits its fields. -/
theorem execSfCreate_ranges {s t : State} (h : execSfCreate s = .next t) (hok : t.resp.err = 0) :
    t.sf.lastTick.toNat < 2 ^ s.sf.tsBits.toNat ∧ t.sf.sequence.toNat < 2 ^ s.sf.seqBits.toNat ∧
      t.sf.lastTick.toInt = t.sf.lastTick.toNat := by
  obtain ⟨-, h1, -, h3⟩ := execSfCreate_minted h hok
  have hts : t.sf.lastTick.toNat < 2 ^ s.sf.tsBits.toNat := by
    rw [h1, masked_toNat]
    exact Nat.mod_lt _ (Nat.two_pow_pos _)
  refine ⟨hts, ?_, toInt_of_lt_two_pow hts (by have := s.sf.tsBits.isLt; omega)⟩
  rcases h3 with ⟨h3, h4⟩ | ⟨h3, h4⟩
  · rw [h3]
    simp only [sameTick]
    rw [sequence_succ h4]
    rw [maskSequence_toNat] at h4
    omega
  · rw [h3]
    simp [newTick]

/-- Any command but a successful SF_CONFIG or SF_SETSTATE leaves the minting state or moves it forward. -/
theorem request_mintLe {r : Request} {s u : State} (h : execPresented (present r s) = .next u)
    (hb : ¬ restartsMinting r u) : MintLe s.sf u.sf := by
  cases hd : decode r.command.word with
  | none =>
    rw [execPresented_of_illegal (s := present r s) hd] at h
    obtain rfl := Host.Outcome.next.inj h
    exact mintLe_refl _
  | some i =>
    rw [execPresented_present hd] at h
    by_cases herr : u.resp.err = 0
    · by_cases hi : i = .sfCreate
      · subst hi
        exact (execSfCreate_forward (s := present r s) h herr).1
      · have hw : ¬ mayWrite .sf i := by
          have hn : i ≠ .sfConfig ∧ i ≠ .sfSetstate := by
            constructor <;> rintro rfl <;> exact hb ⟨herr, by simp [hd]⟩
          cases i <;> simp_all [mayWrite, unitOf, readOnly]
        rw [(unit_unwritten h).1 hw]
        exact mintLe_refl _
    · rw [(unit_of_error h herr).1]
      exact mintLe_refl _

/-- So does any run of commands without one of the two. -/
theorem run_mintLe {rs : List Request} {s t : State} (h : RunAvoiding restartsMinting rs s t) :
    MintLe s.sf t.sf := by
  induction rs generalizing s with
  | nil => rw [show t = s from h]; exact mintLe_refl _
  | cons r rs ih =>
    obtain ⟨u, h1, h2, h3⟩ := h
    exact mintLe_trans (request_mintLe h1 h2) (ih h3)

end Sys2Proof.Machine
end

