-- ==== Sys2Proof/Tests/Slice0.lean ====
section
/-! SUPPORT. Tests of the model on single steps, with results taken from the spec's encoding tables and vectors
(95_test_vectors.md), and a witness for every statement that has hypotheses. -/

namespace Sys2Proof.Tests

open Sys2Proof Sys2Proof.Machine

/-! ### Helpers -/

/-- The state a command leaves. -/
def after : Host.Outcome State Fault Refusal → State
  | .next t => t
  | .fault _ => State.reset
  | .refused _ => State.reset

/-- Lanes from a list of byte values. -/
def lanesFrom (bs : List Nat) : Lanes := lanesOf (bs.map (BitVec.ofNat 8))

/-- The reset state with the operands `a`, `b`, `c` presented. -/
def operands (a : List Nat) (b c : U64) : State := { State.reset with cmd := ⟨0, lanesFrom a, b, c⟩ }

/-- An SF unit with a layout and a minting state loaded. -/
def sfUnit (ts gen seq gid : Nat) (last : U64) (sq : Nat) : SfUnit :=
  ⟨true, BitVec.ofNat 6 ts, BitVec.ofNat 5 gen, BitVec.ofNat 5 seq, BitVec.ofNat 31 gid, last, BitVec.ofNat 31 sq⟩

/-- The state with that SF unit, `tick_in` presenting `tick`, and operands `b` and `c`. -/
def sfState (sf : SfUnit) (tick b c : U64) : State :=
  { operands [] b c with sf := sf, ports := { State.reset.ports with tickIn := tick } }

/-- The layout (45, 2, 16) with generator id 1 of the spec's examples. -/
def exampleSf (last : U64) (sq : Nat) : SfUnit := sfUnit 45 2 16 1 last sq

/-- Ten bytes as a port value. -/
def tenBytes (bs : List Nat) : Vector Byte 10 := Vector.ofFn fun i => BitVec.ofNat 8 (bs.getD i.val 0)

/-- The state with a counter loaded and the two ports of MC_NEXT presenting `ms` and `rand`. -/
def mcState (primed : Bool) (last : U64) (rand : Nat) (ms : U64) (randIn : List Nat) : State :=
  { State.reset with
    mc := ⟨primed, last, BitVec.ofNat 80 rand⟩
    ports := ⟨0, ms, tenBytes randIn⟩ }

/-- A state whose build names the two parameters. -/
def withBuild (headroom : Fin 80) (excess : Dec10Excess) (s : State) : State := { s with build := ⟨headroom, some excess⟩ }

/-- A text in the lanes of `A`. -/
def textState (text : String) : State := operands (text.toList.map Char.toNat) 0 0

/-- A request with the word of `i`, integer operands and ports. -/
def request (i : Instr) (b c tick ms : U64) : Request := ⟨⟨encode i, zeroLanes, b, c⟩, ⟨tick, ms, Vector.replicate 10 0⟩⟩

/-- The first `n` lanes of a response, as numbers. -/
def qBytes (n : Nat) (s : State) : List Nat := (laneList s.resp.payload.q n).map BitVec.toNat

/-- The first `n` lanes of a response, as text. -/
def qText (n : Nat) (s : State) : List Char := (qBytes n s).map Char.ofNat

/-! ### Well-formedness, decoding, encoding -/

theorem test_wellFormed_refuses_len : wellFormed (.b32Enc 32) = false ∧ wellFormed (.b32Dec 32) = false := by decide

theorem test_wellFormed_accepts : wellFormed (.b32Enc 31) = true ∧ wellFormed (.b32Dec 0) = true := by decide

/-- 30_encoding.md R80: a word from its fields `RSV`, `LEN`, `OPC`, most significant first. -/
theorem test_decode_control : decode (0b0000000000000000000#19 ++ 0b00000#5 ++ 0b00000001#8) = some .nop := by decide

theorem test_decode_sf_config : decode (0b0000000000000000000#19 ++ 0b00000#5 ++ 0b00010000#8) = some .sfConfig := by
  decide

theorem test_decode_mc_next : decode (0b0000000000000000000#19 ++ 0b00000#5 ++ 0b00100000#8) = some .mcNext := by
  decide

theorem test_decode_b32_enc : decode (0b0000000000000000000#19 ++ 0b00110#5 ++ 0b00110000#8) = some (.b32Enc 6) := by
  decide

/-- 30_encoding.md R93, column CMD. -/
theorem test_decode_every_command :
    decode 0x00000001#32 = some .nop ∧ decode 0x00000010#32 = some .sfConfig ∧
    decode 0x00000011#32 = some .sfCreate ∧ decode 0x00000012#32 = some .sfDecode ∧
    decode 0x00000013#32 = some .sfQcap ∧ decode 0x00000014#32 = some .sfQmask ∧
    decode 0x00000015#32 = some .sfQlayout ∧ decode 0x00000016#32 = some .sfGetstate ∧
    decode 0x00000017#32 = some .sfSetstate ∧ decode 0x00000020#32 = some .mcNext ∧
    decode 0x00000021#32 = some .mcGetstate ∧ decode 0x00000022#32 = some .mcSetstate ∧
    decode 0x00000A30#32 = some (.b32Enc 10) ∧ decode 0x00000A31#32 = some (.b32Dec 10) ∧
    decode 0x00001031#32 = some (.b32Dec 16) := by decide

/-- T2.EN.14, T2.DE.21: every length decodes; the lengths are checked by the command. -/
theorem test_decode_any_length : decode 0x00000030#32 = some (.b32Enc 0) ∧ decode 0x00001F30#32 = some (.b32Enc 31) ∧
    decode 0x00001F31#32 = some (.b32Dec 31) := by decide

/-- T2.CT.2 to T2.CT.9. -/
theorem test_decode_illegal :
    decode 0x00000000#32 = none ∧ decode 0x000000FF#32 = none ∧ decode 0xFFFFFFFF#32 = none ∧
    decode 0x00000610#32 = none ∧ decode 0x00002011#32 = none ∧ decode 0x00000111#32 = none ∧
    decode 0x00000101#32 = none ∧ decode 0x00000018#32 = none ∧ decode 0x00000023#32 = none ∧
    decode 0x00000032#32 = none ∧ decode 0x00000002#32 = none ∧ decode 0x80000630#32 = none := by decide

theorem test_encode_words : encode .sfSetstate = 0x00000017#32 ∧ encode (.b32Enc 6) = 0x00000630#32 ∧
    encode (.b32Dec 16) = 0x00001031#32 := by decide

theorem test_table_word : decodeTableWord 32 0x00000A31 = some (.b32Dec 10) ∧ decodeTableWord 32 0x00000011 = some .sfCreate ∧
    decodeTableWord 40 0x00000011 = none := by decide

/-- 30_encoding.md R93, R94: the records the assembler lines present. -/
theorem test_records : (sfConfigCommand 45 2 16 1).b = 0x000000010010022D#64 ∧ (sfConfigCommand 45 2 16 1).word = 0x10#32 ∧
    (b32Enc6Command []).word = 0x630#32 ∧ (b32Enc10Command []).word = 0xA30#32 ∧ (b32Dec10Command []).word = 0xA31#32 ∧
    (b32Dec16Command []).word = 0x1031#32 ∧ sfResetgenCommand.b.toInt = -1 ∧ sfResetgenCommand.c = 0 := by decide

/-! ### The step -/

/-- From reset nothing happens until a host issues. -/
theorem test_step_idle : step State.reset = .next State.reset := rfl

/-- T2.ST.1 as the first command after reset. -/
theorem test_step_runs_fetch_word : (after (step (State.reset.withFetchWord 32 0x16))).hosts =
    [⟨[], [⟨⟨zeroLanes, 0xFFFFFFFFFFFFFFFF#64, 0, 0⟩, 0, 0⟩], 1⟩] := by decide

/-- T2.CT.4: an illegal word is answered too. -/
theorem test_step_illegal : (after (step (State.reset.withFetchWord 32 0xFFFFFFFF))).status = ⟨8, 0xFF, true⟩ := by decide

/-- 70_reset_and_hazards.md R270, R271: the waiting command was issued by no host, so the reset is next. -/
theorem test_step_reset : (after (step (assertReset { State.reset with sf := exampleSf 100 1, mc := ⟨true, 5, 7⟩ }))).sf =
    ⟨false, 0, 0, 0, 0, 0xFFFFFFFFFFFFFFFF#64, 0⟩ := by decide

/-- T2.CT.7: an illegal word comes before the gate. -/
theorem test_illegal_before_gate : (after (execPresented { State.reset with cmd := ⟨0x00000111#32, zeroLanes, 0, 0⟩ })).resp =
    ⟨⟨zeroLanes, 0, 0, 0⟩, 8, 0x11⟩ := by decide

/-! ### NOP -/

/-- T2.CT.10. -/
theorem test_nop_keeps_err_seen : (after (exec .nop { State.reset with status := ⟨8, 0, true⟩ })).status = ⟨0, 0, true⟩ := by
  decide

/-! ### SF -/

/-- T2.CFG.7. -/
theorem test_sf_config_loads : (after (exec .sfConfig (operands [] 0x7FFFFFFF001F1F01#64 0))).sf =
    ⟨true, 1, 31, 31, 0x7FFFFFFF#31, 0xFFFFFFFFFFFFFFFF#64, 0⟩ := by decide

/-- T2.CFG.11. -/
theorem test_sf_config_mask : (after (exec .sfConfig (operands [] 0xFFFFFFFFFFFFFFFF#64 0))).resp =
    ⟨⟨zeroLanes, 0, 0, 0⟩, 1, 0x17⟩ := by decide

/-- T2.CR.8: the same-tick branch after a wrap. -/
theorem test_sf_create_wraps : (after (exec .sfCreate (sfState (exampleSf 101 0) 0x200000000065#64 0 0))).resp.payload.w0 =
    0x0000000001950001#64 := by decide

/-- T2.CR.11, third command. -/
theorem test_sf_create_new_tick : (after (exec .sfCreate (sfState (sfUnit 1 31 31 5 0 1) 1 0 0))).resp.payload.w0 =
    0x4000000280000000#64 := by decide

/-- T2.DQ.4. -/
theorem test_sf_decode_all_ones :
    (after (exec .sfDecode (sfState (exampleSf 0 0) 0 0xFFFFFFFFFFFFFFFF#64 0))).resp.payload =
      ⟨zeroLanes, 0x00001FFFFFFFFFFF#64, 3, 0xFFFF⟩ := by decide

/-- T2.DQ.3: bit 63 is ignored. -/
theorem test_sf_decode_top_bit :
    (after (exec .sfDecode (sfState (exampleSf 0 0) 0 0x8000000001910001#64 0))).resp.payload = ⟨zeroLanes, 0x64, 1, 1⟩ := by
  decide

/-- T2.DQ.7. -/
theorem test_sf_qcap : (after (exec .sfQcap (sfState (sfUnit 63 0 0 0 0 0) 0 0 0))).resp.payload =
    ⟨zeroLanes, 1, 1, 0x8000000000000000#64⟩ := by decide

/-- T2.DQ.8. -/
theorem test_sf_qmask : (after (exec .sfQmask (sfState (sfUnit 1 31 31 0x7FFFFFFF 0 0) 0 0 0))).resp.payload =
    ⟨zeroLanes, 1, 0x7FFFFFFF, 0x7FFFFFFF⟩ := by decide

/-- T2.DQ.8. -/
theorem test_sf_qlayout : (after (exec .sfQlayout (sfState (sfUnit 1 31 31 0x7FFFFFFF 0 0) 0 0 0))).resp.payload =
    ⟨zeroLanes, 0x3F1F1F01, 0x7FFFFFFF, 0x1F3E⟩ := by decide

/-- T2.ST.9. -/
theorem test_sf_getstate : (after (exec .sfGetstate (sfState (exampleSf 100 1) 0 0 0))).resp.payload =
    ⟨zeroLanes, 100, 1, 1⟩ := by decide

/-- T2.ST.5: both at their maxima. -/
theorem test_sf_setstate_max : (after (exec .sfSetstate (sfState (exampleSf 0 0) 0 0x1FFFFFFFFFFF#64 65535))).sf =
    exampleSf 0x1FFFFFFFFFFF#64 65535 := by decide

/-- T2.ST.8. -/
theorem test_sf_setstate_mask :
    (after (exec .sfSetstate (sfState (exampleSf 0 0) 0 0xFFFFFFFFFFFFFFFE#64 65536))).resp.info = 0x03 := by decide

/-! ### MC -/

/-- T2.MC.8: a carry through two bytes. -/
theorem test_mc_next_carries :
    qBytes 10 (after (exec .mcNext (mcState true 9 0x123456789ABCDEF0FFFF 9 []))) =
      [0x12, 0x34, 0x56, 0x78, 0x9A, 0xBC, 0xDE, 0xF1, 0, 0] := by decide

/-- T2.MC.16: a fresh draw with `P_HEADROOM = 8`. -/
theorem test_mc_next_headroom :
    qBytes 10 (after (exec .mcNext (withBuild 8 .discard (mcState false 0 0 1 (List.replicate 10 0xFF))))) =
      0 :: List.replicate 9 0xFF := by decide

/-- T2.MC.5. -/
theorem test_mc_getstate : (after (exec .mcGetstate (mcState true 5 0x80000000000000000001 0 []))).resp.payload =
    ⟨lanesFrom [0x80, 0, 0, 0, 0, 0, 0, 0, 0, 1], 5, 1, 0⟩ := by decide

/-- T2.MC.8, first command; lanes 10 to 15 are ignored (30_encoding.md R88). -/
theorem test_mc_setstate :
    (after (exec .mcSetstate (operands [0x12, 0x34, 0x56, 0x78, 0x9A, 0xBC, 0xDE, 0xF0, 0xFF, 0xFF, 1] 9 1))).mc =
      ⟨true, 9, 0x123456789ABCDEF0FFFF⟩ := by decide

/-- T2.MC.12. -/
theorem test_mc_setstate_excess : (after (exec .mcSetstate (operands (List.replicate 10 0xFF) 6 2))).resp =
    ⟨⟨zeroLanes, 0, 0, 0⟩, 4, 1⟩ := by decide

/-! ### B32 -/

/-- T2.EN.6. -/
theorem test_b32_enc_six : qText 16 (after (exec (.b32Enc 6) (operands [0x01, 0x56, 0x3D, 0xF3, 0x64, 0x81] 0 0))) =
    "01ARYZ6S41".toList ++ List.replicate 6 (Char.ofNat 0) := by decide

/-- T2.EN.9. -/
theorem test_b32_enc_ten : qText 16 (after (exec (.b32Enc 10) (operands [1, 2, 3, 4, 5, 6, 7, 8, 9, 10] 0 0))) =
    "041061050R3GG28A".toList := by decide

/-- T2.DE.9. -/
theorem test_b32_dec_sixteen : qBytes 16 (after (exec (.b32Dec 16) (textState "0123456789ABCDEF"))) =
    [0x00, 0x44, 0x32, 0x14, 0xC7, 0x42, 0x54, 0xB6, 0x35, 0xCF, 0, 0, 0, 0, 0, 0] := by decide

/-- T2.DE.18: a character error comes before the excess check. -/
theorem test_b32_dec_priority : (after (exec (.b32Dec 10) (withBuild 1 .reject (textState "8I00000000")))).resp =
    ⟨⟨zeroLanes, 0, 0, 0⟩, 4, 1⟩ := by decide

/-- Program P2, steps 3 and 4. -/
theorem test_ulid_text :
    (ulidText
      (after (exec (.b32Enc 6) (operands [0x01, 0x56, 0x3D, 0xF3, 0x64, 0x81] 0 0))).resp
      (after (exec (.b32Enc 10) (operands [0x7F, 0x00, 0x11, 0x22, 0x33, 0x44, 0x55, 0x66, 0x77, 0x88] 0 0))).resp).map
        (fun c => Char.ofNat c.toNat) = "01ARYZ6S41FW0128HK8HAPCXW8".toList := by decide

/-! ### Witnesses: a concrete state for every hypothesis of the statements

Each is named after its statement; a statement of several clauses has one witness per clause, at the edges where the
clauses meet. -/

/-- The state that the first command after reset is stepped in. -/
def waiting (w : Nat) : State := State.reset.withFetchWord 32 w

/-- The state in which `i` was executed on `s`. -/
def ran (i : Instr) (s : State) : State := after (exec i s)

/-- The state in which `r` was executed on `s`. -/
def answered (r : Request) (s : State) : State := after (execPresented (present r s))

theorem witness_DecodeOfEncodeIsTheCommand : wellFormed (.b32Enc 31) = true ∧ wellFormed (.b32Dec 0) = true := by decide

theorem witness_EncodeOfDecodeIsTheWord : decode 0x00001F31#32 = some (.b32Dec 31) := by decide

/-- An illegal word (the all-zero word the reset state presents) and the word of NOP. -/
theorem witness_IllegalWordsAreThoseOfR91AndRaiseIllegalCommand : decode State.reset.cmd.word = none ∧
    (present (request .nop 0 0 0 0) State.reset).cmd.word = 0x01#32 := by decide

theorem witness_StepExecutesThePresentedCommand :
    (nextEvent (waiting 0x16) = .command 0 ∧
      (headRequest 0 (waiting 0x16)).map (fun r => decode r.command.word) = some (some .sfGetstate)) ∧
    (nextEvent (waiting 0x2011) = .command 0 ∧
      (headRequest 0 (waiting 0x2011)).map (fun r => decode r.command.word) = some none) := by decide

theorem witness_IdleStepChangesNothing : State.reset.resetIn = false ∧ ∀ p ∈ State.reset.hosts, p.issued = [] := by decide

theorem witness_OneResponsePerCommandToItsHostOnly :
    nextEvent (waiting 0x01) = .command 0 ∧ step (waiting 0x01) = .next (after (step (waiting 0x01))) ∧ (1 : Nat) ≠ 0 :=
  ⟨by decide, rfl, by decide⟩

/-- Two hosts with a command each. -/
theorem witness_WaitingHostIsServedOrReset :
    let p : HostPort := ⟨[request .nop 0 0 0 0], [], 0⟩
    let s : State := { State.reset with hosts := [p, p] }
    s.hosts[1]? = some p ∧ p.issued ≠ [] := by decide

theorem witness_ResetSetsEveryRegisterInOneStep : nextEvent (assertReset State.reset) = .reset := by decide

theorem witness_AssertedResetHappensNowOrAfterAWaitingCommand : (assertReset (waiting 0x01)).resetIn = true ∧
    (assertReset State.reset).resetIn = true := by decide

/-- A reset with no command waiting, and the two first commands after it on either side of the gate. -/
theorem witness_AfterResetOnlyTheLayoutCommandsAreTurnedAway :
    let t := after (step (assertReset State.reset))
    let r := request .nop 0 0 0 0
    nextEvent (assertReset State.reset) = .reset ∧ (exec .sfCreate (present r t)) = .next (ran .sfCreate (present r t)) ∧
      (ran .sfCreate (present r t)).resp.err = 7 ∧ (ran .sfGetstate (present r t)).resp.err = 0 :=
  ⟨by decide, rfl, by decide, by decide⟩

theorem witness_BuildParametersNeverChange : step (waiting 0x01) = .next (after (step (waiting 0x01))) := rfl

/-- A configured state with a command waiting; its minting state is at both maxima (T2.ST.5). -/
def fullState : State :=
  { (waiting 0x11) with sf := exampleSf 0x1FFFFFFFFFFF#64 65535 }

theorem witness_EveryStepKeepsTheInvariant : Inv fullState ∧ step fullState = .next (after (step fullState)) :=
  ⟨by decide, rfl⟩

theorem witness_ErrSeenStaysUntilReset :
    step { (waiting 0x01) with status := ⟨8, 0, true⟩ } = .next (after (step { (waiting 0x01) with status := ⟨8, 0, true⟩ })) ∧
    nextEvent { (waiting 0x01) with status := ⟨8, 0, true⟩ } ≠ .reset := ⟨rfl, by decide⟩

theorem witness_CommandLeavesRecordPortsHostsAndBuild : exec .nop State.reset = .next (ran .nop State.reset) := rfl

/-- Each port is sampled by some command: T2.CR.2 and T2.MC.2. -/
theorem witness_PortsAreSampledOnceByTheCommandThatNamesThem :
    (ran .sfCreate (sfState (exampleSf (-1) 0) 100 0 0)).reads = ⟨1, 0, 0⟩ ∧
    (ran .mcNext (mcState false 0 0 5 [])).reads = ⟨0, 1, 1⟩ ∧
    (ran .mcNext (mcState true 5 0 5 [])).reads = ⟨0, 1, 0⟩ ∧
    (ran .sfCreate State.reset).reads = ⟨0, 0, 0⟩ := by decide

theorem witness_ReadOnlyCommandsAreRepeatable :
    readOnly .mcGetstate = true ∧ exec .mcGetstate State.reset = .next (ran .mcGetstate State.reset) := ⟨rfl, rfl⟩

theorem witness_OperandsACommandDoesNotNameAreIgnored :
    SameInputs .sfConfig (operands [] 0x3F 0) (operands [1] 0x3F 7) ∧
    SameInputs (.b32Enc 6) (operands [1, 2, 3, 4, 5, 6] 0 0) (operands [1, 2, 3, 4, 5, 6, 0xFF, 0xFF] 1 1) ∧
    (operands [] 0x3F 0).sf = (operands [1] 0x3F 7).sf :=
  ⟨by unfold SameInputs; decide, by unfold SameInputs; decide, rfl⟩

theorem witness_UnitsAreIndependent : unitOf .mcNext ≠ .sf ∧ unitOf .sfCreate ≠ .mc ∧
    exec .mcNext State.reset = .next (ran .mcNext State.reset) := ⟨by decide, by decide, rfl⟩

theorem witness_CommandsOnDifferentUnitsCommute :
    unitOf .mcNext ≠ unitOf .sfConfig ∧
    decode (request .mcNext 0 0 0 5).command.word = some .mcNext ∧
    decode (request .sfConfig 0x3F 0 0 0).command.word = some .sfConfig ∧
    execPresented (present (request .mcNext 0 0 0 5) State.reset) = .next (answered (request .mcNext 0 0 0 5) State.reset) ∧
    execPresented (present (request .sfConfig 0x3F 0 0 0) State.reset) =
      .next (answered (request .sfConfig 0x3F 0 0 0) State.reset) :=
  ⟨by decide, by decide, by decide, rfl, rfl⟩

theorem witness_GatedCommandsRaiseNotConfigured : needsLayout .sfSetstate = true ∧ State.reset.sf.cfgValid = false := by
  decide

/-- T2.CFG.7 meets the first clause's premises at both caps; T2.CFG.8 and T2.CFG.4 violate one each. -/
theorem witness_SfConfigLoadsALayoutOrReportsEveryViolation :
    configViolations 0x7FFFFFFF001F1F01#64 = 0 ∧ configViolations 0x80000000001F1F01#64 = 0x08 ∧
    configViolations 0x000000000000201F#64 = 0x02 := by decide

/-- The gate's clause, then the five clauses: T2.PR.3, T2.CR.4, T2.CR.9, T2.CR.3, T2.CR.2; the second and the last meet at SF_LAST_TICK = 100. -/
theorem witness_SfCreateMintsOrFailsInStepOrder :
    State.reset.sf.cfgValid = false ∧
    (ran .sfCreate (sfState (exampleSf 0x1FFFFFFFFFFF#64 0) (-1) 0 0)).resp.info = 1 ∧
    (ran .sfCreate (sfState (exampleSf 100 1) 99 0 0)).resp.info = 2 ∧
    (ran .sfCreate (sfState (exampleSf 100 65535) 100 0 0)).resp.err = 3 ∧
    (ran .sfCreate (sfState (exampleSf 100 65534) 100 0 0)).sf = exampleSf 100 65535 ∧
    (ran .sfCreate (sfState (exampleSf 100 65535) 101 0 0)).sf = exampleSf 101 0 := by decide

theorem witness_PackedFieldsDoNotOverlap :
    let sf := sfUnit 1 31 31 0x7FFFFFFF 0 0
    sf.tsBits.toNat + sf.genBits.toNat + sf.seqBits.toNat = 63 ∧ (1#64).toNat < 2 ^ sf.tsBits.toNat ∧
      (0x7FFFFFFF#31).toNat < 2 ^ sf.genBits.toNat ∧ (0x7FFFFFFF#31).toNat < 2 ^ sf.seqBits.toNat := by decide

/-- T1.4, with a failing command between (T2.CR.4). -/
theorem witness_MintedIdsStrictlyIncrease :
    let s := sfState (exampleSf (-1) 0) 0 0 0
    let t := answered (request .sfCreate 0 0 100 0) s
    let u := answered (request .sfCreate 0 0 99 0) t
    let v := answered (request .sfCreate 0 0 100 0) u
    LayoutInv s.sf ∧ t.resp.err = 0 ∧ u.resp.err = 2 ∧ v.resp.err = 0 ∧
      decode (request .sfCreate 0 0 100 0).command.word = some .sfCreate := by decide

/-- T1.5. -/
theorem witness_DecodeOfAMintedIdRoundTrips :
    let s := sfState (exampleSf 100 1) 101 0 0
    let u := sfState (sfUnit 45 2 16 3 0 7) 0 0x0000000001950000#64 0
    LayoutInv s.sf ∧ (ran .sfCreate s).resp.err = 0 ∧ u.sf.cfgValid = true ∧ u.sf.tsBits = s.sf.tsBits ∧
      u.sf.genBits = s.sf.genBits ∧ u.sf.seqBits = s.sf.seqBits ∧ u.cmd.b = (ran .sfCreate s).resp.payload.w0 := by decide

/-- Two ids that differ in bit 63 only, under a legal layout; and no layout at all. -/
theorem witness_SfDecodeSplitsTheId :
    let s := sfState (exampleSf 0 0) 0 0x0000000001910001#64 0
    let s' := sfState (exampleSf 0 0) 0 0x8000000001910001#64 0
    s.sf.cfgValid = true ∧ LayoutInv s.sf ∧ s'.sf = s.sf ∧ s'.cmd.b.toNat % 2 ^ 63 = s.cmd.b.toNat % 2 ^ 63 ∧
      State.reset.sf.cfgValid = false := by decide

theorem witness_LayoutQueriesAnswerTheDerivedValues : State.reset.sf.cfgValid = false ∧
    (sfState (sfUnit 63 0 0 0 0 0) 0 0 0).sf.cfgValid = true := by decide

theorem witness_CapacityLaw : (sfState (sfUnit 1 31 31 0 0 0) 0 0 0).sf.cfgValid = true := by decide

/-- T2.ST.3, T2.ST.5 at the edges of the first clause; T2.ST.4, T2.ST.6, T2.ST.7 just outside them. -/
theorem witness_SfSetstateForcesThePairOrReportsEveryViolation :
    let v := setstateViolations (exampleSf 0 0)
    State.reset.sf.cfgValid = false ∧ (sfState (exampleSf 0 0) 0 0 0).sf.cfgValid = true ∧
    v 0xFFFFFFFFFFFFFFFF#64 0 = 0 ∧ v 0x1FFFFFFFFFFF#64 65535 = 0 ∧ v 0xFFFFFFFFFFFFFFFE#64 0 = 1 ∧
      v 0x200000000000#64 0 = 1 ∧ v 0 65536 = 2 := by decide

/-- T2.CR.9 and a tick that differs above the mask. -/
theorem witness_SequenceOverflowRepeatsWithinTheTick :
    let s := sfState (exampleSf 100 65535) 100 0 0
    let r := request .sfCreate 0 0 0x200000000064 0
    (ran .sfCreate s).resp.err = 3 ∧ decode r.command.word = some .sfCreate ∧ 0 ≤ r.ports.tickIn.toInt ∧
      r.ports.tickIn.toNat % 2 ^ s.sf.tsBits.toNat = s.ports.tickIn.toNat % 2 ^ s.sf.tsBits.toNat := by decide

/-- The three clauses: T2.MC.14's millisecond, T2.MC.10 second and third command; the first two meet at equal
milliseconds, the last two at all ones. -/
theorem witness_McNextDrawsIncrementsOrFails :
    ((mcState false 0 0 0x8000000000000000#64 []).mc.primed = false ∧
      (mcState true 5 0 6 []).mc.lastMillis.toInt < (mcState true 5 0 6 []).ports.millisIn.toInt) ∧
    (let s := mcState true 9 (2 ^ 80 - 2) 9 []
     s.mc.primed = true ∧ s.ports.millisIn.toInt ≤ s.mc.lastMillis.toInt ∧ s.mc.lastRand.toNat + 1 < 2 ^ 80) ∧
    (let s := mcState true 9 (2 ^ 80 - 1) 9 []
     s.mc.primed = true ∧ s.ports.millisIn.toInt ≤ s.mc.lastMillis.toInt ∧ s.mc.lastRand.toNat + 1 = 2 ^ 80) := by
  decide

/-- T2.MC.8's counter, whose carry stops inside, and all ones, whose carry leaves byte 0. -/
theorem witness_IncrementCarriesFromTheLastByteUpward :
    let s := mcState true 9 0x123456789ABCDEF0FFFF 9 []
    let t := mcState true 9 (2 ^ 80 - 1) 9 []
    (s.mc.primed = true ∧ s.ports.millisIn.toInt ≤ s.mc.lastMillis.toInt ∧ (bumpBytes (bytes10 s.mc.lastRand)).1 = false) ∧
    (t.mc.primed = true ∧ t.ports.millisIn.toInt ≤ t.mc.lastMillis.toInt ∧ (bumpBytes (bytes10 t.mc.lastRand)).1 = true) := by
  decide

theorem witness_BytesAndIntegersAreInverse : 2 ^ 80 - 1 < 2 ^ (8 * 10) ∧ 16 ≤ 16 := by decide

/-- T1.10, with a NOP between. -/
theorem witness_IncrementReturnsExactlyOneMore :
    let t := answered (request .mcNext 0 0 0 6) State.reset
    let u := answered (request .nop 0 0 0 0) t
    let v := answered (request .mcNext 0 0 0 6) u
    t.resp.err = 0 ∧ ¬ writesCounter (request .nop 0 0 0 0) u ∧ v.resp.err = 0 ∧
      (request .mcNext 0 0 0 6).ports.millisIn.toInt ≤ u.mc.lastMillis.toInt := by
  refine ⟨by decide, ?_, by decide, by decide⟩
  rintro ⟨-, h | h⟩ <;> exact absurd h (by decide)

/-- T2.MC.17: the least budget, of one bit's worth of draws, and one increment within it. -/
theorem witness_HeadroomBudgetOfAFreshDraw :
    let s := withBuild 79 .discard (mcState false 0 0 1 (List.replicate 10 0xFF))
    let t := ran .mcNext s
    s.mc.primed = false ∧ decode (request .mcNext 0 0 0 1).command.word = some .mcNext ∧
      (request .mcNext 0 0 0 1).ports.millisIn.toInt ≤ t.mc.lastMillis.toInt ∧
      [request .mcNext 0 0 0 1].length ≤ 2 ^ 80 - 2 ^ (80 - s.build.headroom.val) := by decide

/-- Program P3, steps 3 and 4: the state held across a failing MC_NEXT and a read. -/
theorem witness_ExhaustedCounterStaysExhausted :
    let s := mcState true 6 (2 ^ 80 - 1) 0 []
    let t := answered (request .mcNext 0 0 0 6) s
    s.mc.primed = true ∧ s.mc.lastRand.toNat + 1 = 2 ^ 80 ∧ t.resp.err = 6 ∧
      ¬ (s.mc.lastMillis.toInt < (request .mcNext 0 0 0 6).ports.millisIn.toInt) ∧
      t.ports.millisIn.toInt ≤ s.mc.lastMillis.toInt := by decide

/-- T2.MC.3: a run of one MC_NEXT at an earlier millisecond. -/
theorem witness_CounterMillisecondNeverGoesDown :
    let s := mcState true 5 7 0 []
    let r := request .mcNext 0 0 0 4
    s.mc.primed = true ∧ RunAvoiding forcesCounter [r] s (answered r s) := by
  refine ⟨rfl, _, rfl, ?_, rfl⟩
  rintro ⟨-, h⟩
  exact absurd h (by decide)

/-- T2.MC.2 and T2.MC.3: the second reading is earlier; the bounds of W1 at both ends. -/
theorem witness_UlidsFromW1StrictlyIncrease :
    let t := answered (request .mcNext 0 0 0 0) State.reset
    let v := answered (request .mcNext 0 0 0 0xFFFFFFFFFFFF) t
    t.resp.err = 0 ∧ v.resp.err = 0 ∧ 0 ≤ t.resp.payload.w1.toInt ∧ v.resp.payload.w1.toInt < 2 ^ 48 := by decide

/-- `C = 1` and `C = 2`, where the two clauses meet. -/
theorem witness_McSetstateForcesTheCounterOrFails : (operands [] 0 1).cmd.c.toNat < 2 ∧ 2 ≤ (operands [] 0 2).cmd.c.toNat := by
  decide

/-- An entry of the alphabet and the excluded capital I (0x49). -/
theorem witness_DecodeTableInvertsTheAlphabet : alphabetAt 31 = 0x5A#8 ∧ ∀ v < 32, alphabetAt v ≠ 0x49#8 := by decide

/-- T2.EN.14 around the two lengths. -/
theorem witness_B32EncSpellsTheChunk : (5 : Nat) ≠ 6 ∧ (5 : Nat) ≠ 10 ∧ (7 : Nat) ≠ 6 ∧ (31 : Nat) ≠ 10 := by decide

/-- T2.DE.15 for the invalid characters, T2.DE.2 and T2.DE.3 on either side of the excess, T2.DE.11. -/
theorem witness_B32DecReadsTheTextOrFails :
    let d := fun (text : String) (j : Nat) => (decodeAt (lane (textState text).cmd.a j)).toNat
    ((∀ i < 3, d "000U000L00" i < 32) ∧ 32 ≤ d "000U000L00" 3) ∧
    ((∀ j < 10, d "7ZZZZZZZZZ" j < 32) ∧ d "7ZZZZZZZZZ" 0 < 8) ∧
    ((∀ j < 10, d "8000000000" j < 32) ∧ (withBuild 1 .reject (textState "8000000000")).build.excess = .reject ∧
      (withBuild 1 .discard (textState "8000000000")).build.excess = .discard) ∧
    (∀ j < 16, d "ZZZZZZZZZZZZZZZZ" j < 32) := by decide

/-- T2.DE.3 under both values of the parameter, and T2.DE.2. -/
theorem witness_OverRangeMeansFirstDigitEightOrMore :
    (∀ j < 10, (decodeAt (lane (textState "8000000000").cmd.a j)).toNat < 32) ∧
    (ran (.b32Dec 10) (withBuild 1 .reject (textState "8000000000"))).resp.info = 0x80 ∧
    (ran (.b32Dec 10) (withBuild 1 .discard (textState "8000000000"))).resp.err = 0 ∧
    (ran (.b32Dec 10) (textState "7ZZZZZZZZZ")).resp.err = 0 := by decide

theorem witness_DecodeBytesAreTheFixedFormulas : ∀ d ∈ List.replicate 16 (31#8), d.toNat < 32 := by decide

/-- T2.EN.2. -/
theorem witness_DecodeOfEncodeIsTheChunk :
    let s := operands (List.replicate 6 0xFF) 0 0
    let u := textState "7ZZZZZZZZZ"
    (ran (.b32Enc 6) s).resp.err = 0 ∧ u.cmd.a = (ran (.b32Enc 6) s).resp.payload.q := by decide

/-- T2.DE.11, and T2.DE.3 under `DISCARD`, where the text does not come back. -/
theorem witness_EncodeOfDecodeIsTheText :
    (ran (.b32Dec 16) (textState "ZZZZZZZZZZZZZZZZ")).resp.err = 0 ∧
    (let s := withBuild 1 .discard (textState "8000000000")
     (ran (.b32Dec 10) s).resp.err = 0 ∧
       (operands (List.replicate 6 0) 0 0).cmd.a = (ran (.b32Dec 10) s).resp.payload.q) := by decide

theorem witness_TextSortsAsTheIntegersItSpells : 31 < 32 ^ 1 ∧ 0 < 32 ^ 1 := by decide

theorem witness_UlidTextRoundTrips : (List.replicate 16 (0#8)).length = 16 := by decide

theorem witness_LaneOccupiesItsBusBits : 15 < 16 ∧ (busOf (lanesFrom [1, 2])).extractLsb' 8 8 = 2#8 := by decide

end Sys2Proof.Tests
end

/-! PROOFS. The statements of 00_scope.md: byte sequences and integers (R10), what a build fixes (R6). -/

namespace Sys2Proof.Machine

/-- Settles O40: each of the three clauses is a law of `be`, `bytes` and `lanesOf`; the first bound is the law's, since
`2 ^ (8 * n) = 256 ^ n`. -/
theorem bytesAndIntegersAreInverse : Obligations.BytesAndIntegersAreInverse := by
  refine ⟨fun n v hv => ?_, bytes_of_be, fun n v hn => laneList_lanesOf_length (bytes_length n v) hn⟩
  have hv256 : v < 256 ^ n := by rwa [Nat.pow_mul] at hv
  exact be_bytes hv256

/-- A command, from its queue to its response, keeps the build and the number of hosts: its execution has the outer
frame, and taking and delivering replace one host's entry. -/
theorem deliver_presented_keeps_build_and_hostCount {h : Nat} {r : Request} {s u : State}
    (hu : execPresented (presented h r s) = .next u) :
    (deliver h u).build = s.build ∧ (deliver h u).hosts.length = s.hosts.length := by
  have frame : OuterFrame (presented h r s) u := execPresented_frame hu
  simp [frame.build, frame.hosts]

/-- Settles O15, by the four things a step can do. -/
theorem buildParametersNeverChange : Obligations.BuildParametersNeverChange := by
  intro s t hstep
  rcases step_cases s with ⟨-, -, -, heq⟩ | ⟨-, -, heq⟩ | ⟨h, p, r, rest, u, -, -, -, hu, heq⟩ |
    ⟨h, p, -, -, -, -, heq⟩ <;> obtain rfl := Host.Outcome.next.inj (heq.symm.trans hstep)
  · exact ⟨rfl, rfl⟩
  · simp
  · exact deliver_presented_keeps_build_and_hostCount hu
  · simp

end Sys2Proof.Machine

/-! PROOFS. The statements of 10_state.md: the invariants of the registers (R28, R32, R37), the interface (R38 to R40),
the state after reset (R44). -/

namespace Sys2Proof.Machine

/-! ### The status registers (R37) -/

/-- The status registers once a command found them at `st` and ended with response `r`: they record the response, and
an error is an error seen. -/
def statusAfter (st : Status) (r : Response) : Status := ⟨r.err, r.info, st.errSeen || r.err != 0⟩

/-- However a command ends, the status registers record its response, whose code exists. -/
theorem ends_status {sfMay mcMay : Prop} {s u : State} {o : Result} (h : Ends sfMay mcMay s o) (hu : o = .next u) :
    u.status = statusAfter s.status u.resp ∧ u.resp.err.toNat ≤ 8 := by
  rcases h with ⟨t, p, eq, -, hst, -, -⟩ | ⟨t, e, info, eq, -, -, -, -⟩ <;>
    obtain rfl := Host.Outcome.next.inj (eq.symm.trans hu)
  · simp [statusAfter, hst]
  · exact ⟨by simpa [statusAfter] using Or.inr (errCode_ne_zero e), (errCode_range e).2⟩

theorem execPresented_status {s u : State} (hu : execPresented s = .next u) :
    u.status = statusAfter s.status u.resp ∧ u.resp.err.toNat ≤ 8 := by
  obtain ⟨_, _, hends⟩ := execPresented_ends s
  exact ends_status hends hu

/-- A presented command establishes the status invariant, whatever the status registers held before. -/
theorem execPresented_statusInv {s u : State} (hu : execPresented s = .next u) : StatusInv u := by
  obtain ⟨hst, hle⟩ := execPresented_status hu
  rw [StatusInv, hst]
  exact ⟨hle, rfl, rfl, fun hne => by simpa [statusAfter] using .inr hne⟩

/-- Settles O19: of the steps that are not a reset only a command writes ERR_SEEN, and it never clears it. -/
theorem errSeenStaysUntilReset : Obligations.ErrSeenStaysUntilReset := by
  intro s t hstep hne hseen
  rcases step_cases s with ⟨-, -, -, heq⟩ | ⟨hreset, -, -⟩ | ⟨h, p, r, rest, u, -, -, -, hu, heq⟩ |
    ⟨h, p, -, -, -, -, heq⟩
  · obtain rfl := Host.Outcome.next.inj (heq.symm.trans hstep)
    exact hseen
  · exact absurd hreset hne
  · obtain rfl := Host.Outcome.next.inj (heq.symm.trans hstep)
    simp [(execPresented_status hu).1, statusAfter, hseen]
  · obtain rfl := Host.Outcome.next.inj (heq.symm.trans hstep)
    exact hseen

/-! ### What a command ends in, by the branches of its meaning -/

/-- The answer `o` is a next state, which meets `P`. -/
def EndsIn (P : State → Prop) (o : Result) : Prop := ∃ u, o = .next u ∧ P u

section
variable {P : State → Prop} {s u : State}

theorem endsIn_next {o : Result} (h : EndsIn P o) (hu : o = .next u) : P u := by
  obtain ⟨v, hv, hP⟩ := h
  obtain rfl := Host.Outcome.next.inj (hv.symm.trans hu)
  exact hP

theorem endsIn_respond {p : Payload} (h : P (okState s p)) : EndsIn P (respond p s) := ⟨_, rfl, h⟩

theorem endsIn_raise {e : ErrKind} {i : Byte} (h : P (errState s (errCode e) i)) : EndsIn P (raise e i s) := ⟨_, rfl, h⟩

theorem endsIn_ite {c : Prop} [Decidable c] {a b : Result} (ha : c → EndsIn P a) (hb : ¬ c → EndsIn P b) :
    EndsIn P (if c then a else b) := by
  split
  · exact ha ‹_›
  · exact hb ‹_›

theorem endsIn_gated {k : State → Result} (hno : P (errState s 7 0)) (hk : s.sf.cfgValid = true → EndsIn P (k s)) :
    EndsIn P (gated s k) :=
  endsIn_ite hk fun _ => endsIn_raise hno

theorem execSfConfig_endsIn (err : ∀ v, P (errState s 1 v))
    (ok : configViolations s.cmd.b = 0 → P (okState { s with sf := configured s.cmd.b } {})) :
    EndsIn P (execSfConfig s) :=
  endsIn_ite (fun _ => endsIn_raise (err _)) fun h => endsIn_respond (ok (not_not.1 h))

theorem execSfSetstate_endsIn (gate : P (errState s 7 0)) (err : ∀ v, P (errState s 4 v))
    (ok : s.sf.cfgValid = true → setstateViolations s.sf s.cmd.b s.cmd.c = 0 →
      P (okState { s with sf := { s.sf with lastTick := s.cmd.b, sequence := s.cmd.c.setWidth 31 } } {})) :
    EndsIn P (execSfSetstate s) :=
  endsIn_gated gate fun hc =>
    endsIn_ite (fun _ => endsIn_raise (err _)) fun h => endsIn_respond (ok hc (not_not.1 h))

theorem execMcSetstate_endsIn (err : P (errState s 4 1))
    (ok : P (okState { s with mc := ⟨setstatePrimed s.cmd, s.cmd.b, setstateRand s.cmd⟩ } {})) :
    EndsIn P (execMcSetstate s) :=
  endsIn_ite (fun _ => endsIn_raise err) fun _ => endsIn_respond ok

theorem execB32Enc_endsIn {n : Nat} (err : ∀ v, P (errState s 5 v)) (ok : ∀ p, P (okState s p)) :
    EndsIn P (execB32Enc n s) :=
  endsIn_ite (fun _ => endsIn_raise (err _)) fun _ => endsIn_respond (ok _)

theorem execB32Dec_endsIn {n : Nat} (len : ∀ v, P (errState s 5 v)) (arg : ∀ v, P (errState s 4 v))
    (ok : ∀ p, P (okState s p)) : EndsIn P (execB32Dec n s) := by
  refine endsIn_ite (fun _ => endsIn_raise (len _)) fun _ => ?_
  unfold decodeDigits
  split
  · exact endsIn_raise (arg _)
  · refine endsIn_ite (fun _ => ?_) fun _ => endsIn_respond (ok _)
    exact endsIn_ite (fun _ => endsIn_raise (arg _)) fun _ => endsIn_respond (ok _)

end

/-! ### The layout and minting-state invariants (R28, R32) -/

/-- What Inv says of the SF unit. -/
structure SfInv (sf : SfUnit) : Prop where
  layout : LayoutInv sf
  minting : MintingInv sf

theorem sfInv_reset : SfInv SfUnit.reset := by
  constructor <;> decide

theorem setWidth_toNat_of_lt {w v : Nat} {x : BitVec w} (h : x.toNat < 2 ^ v) : (x.setWidth v).toNat = x.toNat := by
  rw [BitVec.toNat_setWidth, Nat.mod_eq_of_lt h]

/-- The five checks of SF_CONFIG are the layout invariant of the unit it leaves (40_bitpack.md R121). -/
theorem sfInv_configured {b : U64} (h : configViolations b = 0) : SfInv (configured b) := by
  obtain ⟨hsum, hgen, hseq, hgid, -⟩ := configViolations_eq_zero.1 h
  have hpow : 2 ^ (configGen b).toNat ≤ 2 ^ 31 := Nat.pow_le_pow_right (by decide) hgen
  have ts : ((configTs b).setWidth 6).toNat = (configTs b).toNat := setWidth_toNat_of_lt (by omega)
  have gen : ((configGen b).setWidth 5).toNat = (configGen b).toNat := setWidth_toNat_of_lt (by omega)
  have seq : ((configSeq b).setWidth 5).toNat = (configSeq b).toNat := setWidth_toNat_of_lt (by omega)
  have gid : ((configGid b).setWidth 31).toNat = (configGid b).toNat := setWidth_toNat_of_lt (by omega)
  have htick : (0xFFFFFFFFFFFFFFFF#64).toInt = -1 := by decide
  have hts : (0 : Int) < 2 ^ (configTs b).toNat := by positivity
  constructor
  · intro _
    simp only [configured, ts, gen, seq, gid]
    exact ⟨hsum, hgid⟩
  · refine ⟨fun _ => ?_, nofun⟩
    simp only [configured, ts, seq, htick]
    exact ⟨le_rfl, by omega, Nat.zero_le _⟩

/-- The two checks of SF_SETSTATE are the minting-state invariant of the unit it leaves (40_bitpack.md R137). -/
theorem sfInv_forced {sf : SfUnit} {lt sq : U64} (inv : SfInv sf) (hc : sf.cfgValid = true)
    (h : setstateViolations sf lt sq = 0) : SfInv { sf with lastTick := lt, sequence := sq.setWidth 31 } := by
  obtain ⟨hlo, hhi, hsq⟩ := setstateViolations_eq_zero.1 h
  rw [maskTime_toInt] at hhi
  have hmask := (maskSequence sf).isLt
  have hseq : (sq.setWidth 31).toNat = sq.toNat := setWidth_toNat_of_lt (by omega)
  refine ⟨inv.layout, fun _ => ⟨hlo, hhi, ?_⟩, fun hn => absurd (hc.symm.trans hn) (by decide)⟩
  rw [hseq, ← maskSequence_toNat]
  exact hsq

/-- A mint keeps the layout, and the minting state it leaves fits the fields of the id. -/
theorem execSfCreate_sfInv {s t : State} (inv : SfInv s.sf) (h : execSfCreate s = .next t) (hok : t.resp.err = 0) :
    SfInv t.sf := by
  obtain ⟨hc, -⟩ := execSfCreate_minted h hok
  obtain ⟨hle, -⟩ := execSfCreate_forward h hok
  obtain ⟨htick, hseq, hint⟩ := execSfCreate_ranges h hok
  have hlayout := inv.layout hc
  constructor
  · intro _
    rwa [hle.ts, hle.gen, hle.seq, hle.gid]
  · refine ⟨fun _ => ?_, fun hn => absurd ((hle.valid.trans hc).symm.trans hn) (by decide)⟩
    have htick' : (t.sf.lastTick.toNat : Int) < 2 ^ s.sf.tsBits.toNat := by exact_mod_cast htick
    rw [hle.ts, hle.seq, hint]
    omega

/-- Every command keeps the invariant of the SF unit: one that fails or is read-only leaves the unit, and each of the
three that write it tests what the invariant asks. -/
theorem exec_keeps_sfInv {i : Instr} {s t : State} (inv : SfInv s.sf) (h : exec i s = .next t) : SfInv t.sf := by
  by_cases hok : t.resp.err = 0
  · by_cases hw : mayWrite .sf i
    · cases i with
      | sfConfig => exact endsIn_next (execSfConfig_endsIn (P := fun u => SfInv u.sf) (fun _ => inv) sfInv_configured) h
      | sfCreate => exact execSfCreate_sfInv inv h hok
      | sfSetstate =>
        exact endsIn_next (execSfSetstate_endsIn (P := fun u => SfInv u.sf) inv (fun _ => inv) (sfInv_forced inv)) h
      | _ => simp [mayWrite, unitOf, readOnly] at hw
    · rw [(unit_unwritten h).1 hw]
      exact inv
  · rw [(unit_of_error h hok).1]
    exact inv

theorem execPresented_keeps_sfInv {s t : State} (inv : SfInv s.sf) (h : execPresented s = .next t) : SfInv t.sf := by
  cases hd : decode s.cmd.word with
  | none =>
    rw [execPresented_of_illegal hd] at h
    obtain rfl := Host.Outcome.next.inj h
    exact inv
  | some i =>
    rw [execPresented_of_decode hd] at h
    exact exec_keeps_sfInv inv h

/-- A command, from its queue to its response, keeps the whole invariant. -/
theorem deliver_presented_keeps_inv {h : Nat} {r : Request} {s u : State} (inv : Inv s)
    (hu : execPresented (presented h r s) = .next u) : Inv (deliver h u) := by
  obtain ⟨hlayout, hminting, -, hhosts⟩ := inv
  have sfInv : SfInv u.sf := execPresented_keeps_sfInv (s := presented h r s) ⟨hlayout, hminting⟩ hu
  have statusInv : StatusInv u := execPresented_statusInv hu
  refine ⟨sfInv.layout, sfInv.minting, statusInv, ?_⟩
  simpa [(execPresented_frame hu).hosts] using hhosts

theorem statusInv_reset : StatusInv State.reset := by decide

theorem resetState_inv {s : State} (hhosts : s.hosts ≠ []) : Inv (resetState s) :=
  ⟨sfInv_reset.layout, sfInv_reset.minting, statusInv_reset, by simpa using hhosts⟩

/-- Settles O16, by the four things a step can do. -/
theorem everyStepKeepsTheInvariant : Obligations.EveryStepKeepsTheInvariant := by
  intro s t inv hstep
  rcases step_cases s with ⟨-, -, -, heq⟩ | ⟨-, -, heq⟩ | ⟨h, p, r, rest, u, -, -, -, hu, heq⟩ |
    ⟨h, p, -, -, -, -, heq⟩ <;> obtain rfl := Host.Outcome.next.inj (heq.symm.trans hstep)
  · exact inv
  · obtain ⟨-, -, -, hhosts⟩ := inv
    exact resetState_inv hhosts
  · exact deliver_presented_keeps_inv inv hu
  · obtain ⟨hlayout, hminting, hstatus, hhosts⟩ := inv
    exact ⟨hlayout, hminting, hstatus, by simpa using hhosts⟩

/-- Settles O17: the SF unit, the status registers and the hosts of `State.reset` each meet their part. -/
theorem invariantHoldsAfterReset : Obligations.InvariantHoldsAfterReset :=
  ⟨sfInv_reset.layout, sfInv_reset.minting, statusInv_reset, by decide⟩

/-! ### The interface (R38 to R40) -/

/-- Settles O10: the queue changes when the command is taken, the answers when its response is delivered, and the
execution between the two has the outer frame. -/
theorem oneResponsePerCommandToItsHostOnly : Obligations.OneResponsePerCommandToItsHostOnly := by
  intro s t h he hstep
  obtain ⟨p, r, rest, hp, hq, hr⟩ := nextEvent_command he
  rw [step_command he hr] at hstep
  obtain ⟨_, _, hends⟩ := execPresented_ends (presented h r s)
  obtain ⟨u, hu⟩ := ends_next hends
  rw [hu] at hstep
  obtain rfl := Host.Outcome.next.inj hstep
  have frame : OuterFrame (presented h r s) u := execPresented_frame hu
  refine ⟨⟨p, r, rest, hp, hq, frame.cmd, ?_⟩, fun j hj => ?_⟩
  · simp [frame.hosts, hp, hq]
  · simp [frame.hosts, hj.symm]

/-- Settles O20: the outer frame of every command. -/
theorem commandLeavesRecordPortsHostsAndBuild : Obligations.CommandLeavesRecordPortsHostsAndBuild := by
  intro i s t h
  have frame : OuterFrame s t := ends_frame (exec_ends i s) h
  exact ⟨frame.cmd, frame.ports, frame.hosts, frame.resetIn, frame.choices, frame.build⟩

/-- A command whose rule names no port samples none. -/
theorem exec_reads_of_no_port {i : Instr} (s : State) (hcreate : i ≠ .sfCreate) (hnext : i ≠ .mcNext) :
    EndsIn (fun u => u.reads = s.reads) (exec i s) := by
  cases i with
  | nop => exact endsIn_respond rfl
  | sfConfig => exact execSfConfig_endsIn (fun _ => rfl) (fun _ => rfl)
  | sfCreate => exact absurd rfl hcreate
  | sfDecode => exact endsIn_gated rfl fun _ => endsIn_respond rfl
  | sfQcap => exact endsIn_gated rfl fun _ => endsIn_respond rfl
  | sfQmask => exact endsIn_gated rfl fun _ => endsIn_respond rfl
  | sfQlayout => exact endsIn_gated rfl fun _ => endsIn_respond rfl
  | sfGetstate => exact endsIn_respond rfl
  | sfSetstate => exact execSfSetstate_endsIn rfl (fun _ => rfl) (fun _ _ => rfl)
  | mcNext => exact absurd rfl hnext
  | mcGetstate => exact endsIn_respond rfl
  | mcSetstate => exact execMcSetstate_endsIn rfl rfl
  | b32Enc n => exact execB32Enc_endsIn (fun _ => rfl) (fun _ => rfl)
  | b32Dec n => exact execB32Dec_endsIn (fun _ => rfl) (fun _ => rfl) (fun _ => rfl)

/-- The steps of SF_CREATE after its sample take no other. -/
theorem createFrom_reads (ticks ts : U64) (s : State) :
    EndsIn (fun u => u.reads = s.reads) (createFrom ticks ts s) := by
  refine endsIn_ite (fun _ => endsIn_raise rfl) fun _ => ?_
  refine endsIn_ite (fun _ => endsIn_raise rfl) fun _ => ?_
  refine endsIn_ite (fun _ => ?_) fun _ => endsIn_respond rfl
  exact endsIn_ite (fun _ => endsIn_raise rfl) fun _ => endsIn_respond rfl

/-- SF_CREATE samples `tick_in` exactly when it is past its gate (40_bitpack.md R120, R123). -/
theorem execSfCreate_reads (s : State) :
    EndsIn (fun u => u.reads = { s.reads with tick := s.reads.tick + if s.sf.cfgValid = true then 1 else 0 })
      (execSfCreate s) := by
  cases hc : s.sf.cfgValid
  · exact ⟨_, gated_of_invalid hc _, by simp⟩
  · rw [execSfCreate, gated_of_valid hc]
    exact createFrom_reads ..

/-- MC_NEXT samples `millis_in` always, and `rand_in` exactly when it draws fresh (41_monotonic.md R170). -/
theorem execMcNext_reads (s : State) :
    EndsIn (fun u => u.reads = ⟨s.reads.tick, s.reads.millis + 1,
      s.reads.rand + if drawsFresh s.mc (millisSample s) = true then 1 else 0⟩) (execMcNext s) := by
  refine endsIn_ite (fun hf => ?_) fun hf => ?_
  · simp only [if_pos hf]
    exact endsIn_respond rfl
  · simp only [if_neg hf]
    exact endsIn_ite (fun _ => endsIn_raise rfl) fun _ => endsIn_respond rfl

/-- Settles O21: of the commands only SF_CREATE and MC_NEXT sample. -/
theorem portsAreSampledOnceByTheCommandThatNamesThem : Obligations.PortsAreSampledOnceByTheCommandThatNamesThem := by
  intro i s t h
  by_cases hcreate : i = .sfCreate
  · subst hcreate
    have hreads := endsIn_next (execSfCreate_reads s) h
    simp [hreads]
  · by_cases hnext : i = .mcNext
    · subst hnext
      have hreads := endsIn_next (execMcNext_reads s) h
      simp [hreads, drawsFresh_iff, millisSample]
    · have hreads := endsIn_next (exec_reads_of_no_port s hcreate hnext) h
      simp [hreads, hcreate, hnext]

/-- Settles O23: the named inputs, the units and the build fix the response and the units, and the response then fixes
the status registers. -/
theorem operandsACommandDoesNotNameAreIgnored : Obligations.OperandsACommandDoesNotNameAreIgnored := by
  intro i s s' t t' hin hsf hmc hb hst ht ht'
  obtain ⟨u, u', hu, hu', hresp, hsf', hmc'⟩ :=
    exec_same (eqSf := True) (eqMc := True) hin (fun _ => hsf) (fun _ => hmc) hb
  obtain rfl := Host.Outcome.next.inj (hu.symm.trans ht)
  obtain rfl := Host.Outcome.next.inj (hu'.symm.trans ht')
  refine ⟨hresp, hsf' trivial, hmc' trivial, ?_⟩
  rw [(ends_status (exec_ends i s) ht).1, (ends_status (exec_ends i s') ht').1, hst, hresp]

/-! ### The derived values (R29) -/

/-- A power of two that fits its word is read back exactly. -/
theorem ofNat_two_pow_toNat {w n : Nat} (h : n < w) : (BitVec.ofNat w (2 ^ n)).toNat = 2 ^ n := by
  rw [BitVec.toNat_ofNat, Nat.mod_eq_of_lt (Nat.pow_lt_pow_right (by decide) h)]

/-- Settles O35: neither power overflows its word, since SF_GEN_BITS and SF_SEQ_BITS are below 32. -/
theorem capacityLaw : Obligations.CapacityLaw := by
  intro s hc
  have hgen := s.sf.genBits.isLt
  have hseq := s.sf.seqBits.isLt
  refine ⟨_, gated_of_valid hc _, rfl, ?_⟩
  show (BitVec.ofNat 64 (2 ^ _)).toNat * (BitVec.ofNat 64 (2 ^ _)).toNat = _
  rw [ofNat_two_pow_toNat (by omega), ofNat_two_pow_toNat (by omega), Nat.pow_add]

/-! ### After reset (R44) -/

theorem digitFrom_eq_findIdx? (c : Byte) (xs : List Byte) (v : Nat) :
    digitFrom c xs v = (xs.findIdx? (· = c)).map (· + v) := by
  induction xs generalizing v with
  | nil => rfl
  | cons x xs ih =>
    by_cases h : x = c
    · simp [digitFrom, List.findIdx?_cons, h]
    · simp [digitFrom, List.findIdx?_cons, h, ih, Function.comp_def, Nat.add_assoc, Nat.add_comm 1]

/-- Settles O11: the registers and the alphabet by evaluation, DECODE_TABLE because its entry for a code is the index
at which the alphabet has it. -/
theorem resetValuesAreThoseOfR44 : Obligations.ResetValuesAreThoseOfR44 := by
  refine ⟨rfl, rfl, rfl, rfl, rfl, by decide, rfl, rfl, rfl, rfl, rfl, rfl, rfl, by decide, fun c => ?_⟩
  rw [decodeAt_eq, decodeEntry, digitFrom_eq_findIdx?]
  cases alphabet.findIdx? (· = c) <;> rfl

/-- With no layout loaded a command that needs one is turned away (40_bitpack.md R120). -/
theorem exec_of_needsLayout {i : Instr} {s : State} (hi : needsLayout i = true) (hc : s.sf.cfgValid = false) :
    exec i s = .next (errState s 7 0) := by
  cases i with
  | sfCreate | sfDecode | sfQcap | sfQmask | sfQlayout | sfSetstate =>
    simp only [exec, execSfCreate, execSfDecode, execSfQcap, execSfQmask, execSfQlayout, execSfSetstate,
      gated_of_invalid hc]
  | _ => simp [needsLayout] at hi

/-- The code of every error a command that needs no layout can raise is another than NotConfigured's. -/
theorem exec_err_ne_notConfigured {i : Instr} (s : State) (hi : needsLayout i = false) :
    EndsIn (fun u => u.resp.err ≠ 7) (exec i s) := by
  have ok : ∀ (v : State) (p : Payload), (okState v p).resp.err ≠ 7 := fun _ _ => by simp
  have err : ∀ (v : State) (c : BitVec 4) (x : Byte), c ≠ 7 → (errState v c x).resp.err ≠ 7 := fun _ _ _ h => h
  cases i with
  | nop => exact endsIn_respond (ok _ _)
  | sfConfig => exact execSfConfig_endsIn (fun _ => err _ _ _ (by decide)) (fun _ => ok _ _)
  | sfGetstate => exact endsIn_respond (ok _ _)
  | mcNext =>
    refine endsIn_ite (fun _ => endsIn_respond (ok _ _)) fun _ => ?_
    exact endsIn_ite (fun _ => endsIn_raise (err _ _ _ (by decide))) fun _ => endsIn_respond (ok _ _)
  | mcGetstate => exact endsIn_respond (ok _ _)
  | mcSetstate => exact execMcSetstate_endsIn (err _ _ _ (by decide)) (ok _ _)
  | b32Enc n => exact execB32Enc_endsIn (fun _ => err _ _ _ (by decide)) (ok _)
  | b32Dec n => exact execB32Dec_endsIn (fun _ => err _ _ _ (by decide)) (fun _ => err _ _ _ (by decide)) (ok _)
  | _ => simp [needsLayout] at hi

/-- A command ends with NotConfigured exactly when it needs a layout and none is loaded. -/
theorem exec_err_notConfigured_iff {i : Instr} {s u : State} (hc : s.sf.cfgValid = false) (hu : exec i s = .next u) :
    u.resp.err = 7 ↔ needsLayout i = true := by
  cases hi : needsLayout i
  · simpa using endsIn_next (exec_err_ne_notConfigured s hi) hu
  · obtain rfl := Host.Outcome.next.inj ((exec_of_needsLayout hi hc).symm.trans hu)
    simp

/-- MC_NEXT on an unprimed counter loads the sampled millisecond and the sampled bytes below the headroom
(41_monotonic.md R171, R172). -/
theorem execMcNext_of_unprimed {s : State} (hp : s.mc.primed = false) :
    ∃ u, execMcNext s = .next u ∧ u.resp.err = 0 ∧ u.mc.lastMillis = s.ports.millisIn ∧
      u.mc.lastRand.toNat = be s.ports.randIn.toList % 2 ^ (80 - s.build.headroom.val) := by
  obtain ⟨u, hu⟩ := ends_next (exec_ends .mcNext s)
  rcases execMcNext_cases hu with ⟨-, adv⟩ | ⟨hp', -⟩ | ⟨hp', -⟩
  · refine ⟨u, hu, by rw [adv.resp], by rw [adv.mc], ?_⟩
    rw [adv.mc, withHeadroom_toNat, randSample, u80Of_toNat (by simp)]
  · exact absurd (hp.symm.trans hp') (by decide)
  · exact absurd (hp.symm.trans hp') (by decide)

/-- Settles O14: a reset leaves no layout loaded and the counter unprimed, and keeps the build. -/
theorem afterResetOnlyTheLayoutCommandsAreTurnedAway : Obligations.AfterResetOnlyTheLayoutCommandsAreTurnedAway := by
  intro s t r he hstep
  obtain rfl := Host.Outcome.next.inj ((step_reset he).symm.trans hstep)
  exact ⟨fun i u hu => exec_err_notConfigured_iff (s := present r (resetState s)) rfl hu,
    execMcNext_of_unprimed (s := present r (resetState s)) rfl⟩

end Sys2Proof.Machine

/-! PROOFS. The statements of 20_memory.md: the bus (R61), the step (R62, R63), the units (R64), repeating (R66),
the hosts (R70). -/

namespace Sys2Proof.Machine

/-! ### The bus (R61) -/

/-- Where byte 0 is the least significant, byte `i` of a sequence is digit `i` in base 256 of its integer. -/
theorem be_reverse_digit (bs : List Byte) (i : Nat) : be bs.reverse / 256 ^ i % 256 = (bs.getD i 0#8).toNat := by
  induction bs generalizing i with
  | nil => simp
  | cons x xs ih =>
    have hx := x.isLt
    rw [List.reverse_cons, be_append_singleton]
    cases i with
    | zero =>
      rw [pow_zero, Nat.div_one, List.getD_cons_zero]
      omega
    | succ i =>
      have htail : (be xs.reverse * 256 + x.toNat) / 256 = be xs.reverse := by omega
      rw [Nat.pow_succ', ← Nat.div_div_eq_div_mul, htail, List.getD_cons_succ, ih]

theorem busOf_toNat (a : Lanes) : (busOf a).toNat = be a.toList.reverse := by
  have hlt : be a.toList.reverse < 256 ^ 16 := by simpa using be_lt a.toList.reverse
  rw [busOf, BitVec.toNat_ofNat, Nat.mod_eq_of_lt (by omega)]

/-- Settles O59: lane `i` is digit `i` in base 256 of the bus, counted from the least significant. -/
theorem laneOccupiesItsBusBits : Obligations.LaneOccupiesItsBusBits := by
  intro a i _
  apply BitVec.eq_of_toNat_eq
  rw [BitVec.extractLsb'_toNat, busOf_toNat, Nat.shiftRight_eq_div_pow, Nat.pow_mul]
  exact be_reverse_digit a.toList i

/-! ### The step (R62, R63) -/

/-- Settles O7: each of the four things a step can do answers a next state. -/
theorem everyStepGoesOn : Obligations.EveryStepGoesOn := by
  intro s
  rcases step_cases s with ⟨-, -, -, heq⟩ | ⟨-, -, heq⟩ | ⟨h, p, r, rest, u, -, -, -, -, heq⟩ | ⟨h, p, -, -, -, -, heq⟩
  · exact ⟨s, heq⟩
  · exact ⟨resetState s, heq⟩
  · exact ⟨deliver h u, heq⟩
  · exact ⟨takeFrom h s, heq⟩

/-- Settles O6: the state the statement writes out is `presented h r s`, and the one it answers is `deliver h t`. -/
theorem stepExecutesThePresentedCommand : Obligations.StepExecutesThePresentedCommand := by
  intro s t h r he hr
  refine ⟨fun i hd (ht : exec i (presented h r s) = .next t) => ?_,
    fun hd (ht : illegalCommand (presented h r s) = .next t) => ?_⟩
  · rw [step_command he hr, execPresented_of_decode (s := presented h r s) hd, ht]
    rfl
  · rw [step_command he hr, execPresented_of_illegal (s := presented h r s) hd, ht]
    rfl

/-! ### The units (R64, R66) -/

/-- A command leaves the registers of every unit but its own. -/
theorem exec_keeps_other_units {i : Instr} {s t : State} (h : exec i s = .next t) :
    (unitOf i ≠ .sf → t.sf = s.sf) ∧ (unitOf i ≠ .mc → t.mc = s.mc) := by
  obtain ⟨hsf, hmc⟩ := unit_unwritten h
  exact ⟨fun hi => hsf fun hw => hi hw.1, fun hi => hmc fun hw => hi hw.1⟩

/-- Settles O22: a read-only command leaves both units, its own record and the build, and so everything its response
depends on. -/
theorem readOnlyCommandsAreRepeatable : Obligations.ReadOnlyCommandsAreRepeatable := by
  intro i s t hro h
  have unwritable : ∀ u, ¬ mayWrite u i := fun _ hw => absurd (hro.symm.trans hw.2) (by decide)
  have hsf : t.sf = s.sf := (unit_unwritten h).1 (unwritable .sf)
  have hmc : t.mc = s.mc := (unit_unwritten h).2 (unwritable .mc)
  have frame : OuterFrame s t := ends_frame (exec_ends i s) h
  obtain ⟨t', u, ht', hu, hresp, husf, humc⟩ := exec_same (eqSf := True) (eqMc := True)
    (sameInputs_of_eq frame.cmd frame.ports) (fun _ => hsf) (fun _ => hmc) frame.build
  obtain rfl := Host.Outcome.next.inj (ht'.symm.trans h)
  exact ⟨hsf, hmc, u, hu, hresp, husf trivial, humc trivial⟩

/-- Settles O24: a command leaves the other units, and its response and its own unit depend on no other unit. -/
theorem unitsAreIndependent : Obligations.UnitsAreIndependent := by
  intro i s t h
  obtain ⟨keepsSf, keepsMc⟩ := exec_keeps_other_units h
  refine ⟨fun hi => ⟨keepsSf hi, fun sf => ?_⟩, fun hi => ⟨keepsMc hi, fun mc => ?_⟩⟩
  · obtain ⟨t', u, ht', hu, hresp, -, humc⟩ := exec_same (i := i) (s := s) (s' := { s with sf := sf }) (eqSf := False)
      (eqMc := True) (sameInputs_of_eq rfl rfl) (fun hsf => absurd hsf (by simp [hi])) (fun _ => rfl) rfl
    obtain rfl := Host.Outcome.next.inj (ht'.symm.trans h)
    exact ⟨u, hu, hresp, humc trivial⟩
  · obtain ⟨t', u, ht', hu, hresp, husf, -⟩ := exec_same (i := i) (s := s) (s' := { s with mc := mc }) (eqSf := True)
      (eqMc := False) (sameInputs_of_eq rfl rfl) (fun _ => rfl) (fun hmc => absurd hmc (by simp [hi])) rfl
    obtain rfl := Host.Outcome.next.inj (ht'.symm.trans h)
    exact ⟨u, hu, hresp, husf trivial⟩

section
variable {i j : Instr} {ri rj : Request} {s a c d : State}

/-- A request leaves the registers of every unit but that of its command. -/
theorem request_keeps_other_units (hdi : decode ri.command.word = some i)
    (ha : execPresented (present ri s) = .next a) :
    (unitOf i ≠ .sf → a.sf = s.sf) ∧ (unitOf i ≠ .mc → a.mc = s.mc) :=
  exec_keeps_other_units (s := present ri s) ((execPresented_present hdi s).symm.trans ha)

/-- A request's response, and the unit of its command, are the same with a request to another unit before it. -/
theorem request_same_after_other_unit (hdi : decode ri.command.word = some i) (hdj : decode rj.command.word = some j)
    (hij : unitOf i ≠ unitOf j) (ha : execPresented (present ri s) = .next a)
    (hc : execPresented (present rj s) = .next c) (hd : execPresented (present ri c) = .next d) :
    d.resp = a.resp ∧ (unitOf i = .sf → d.sf = a.sf) ∧ (unitOf i = .mc → d.mc = a.mc) := by
  obtain ⟨keepsSf, keepsMc⟩ := request_keeps_other_units hdj hc
  have frame : OuterFrame (present rj s) c := execPresented_frame hc
  obtain ⟨a', d', ha', hd', hsame⟩ := exec_same (i := i) (s := present ri s) (s' := present ri c)
    (eqSf := unitOf i = .sf) (eqMc := unitOf i = .mc) (sameInputs_of_eq rfl rfl)
    (fun hi => keepsSf fun hj => hij ((or_self_iff.1 hi).trans hj.symm))
    (fun hi => keepsMc fun hj => hij ((or_self_iff.1 hi).trans hj.symm)) frame.build
  rw [execPresented_present hdi] at ha hd
  obtain rfl := Host.Outcome.next.inj (ha'.symm.trans ha)
  obtain rfl := Host.Outcome.next.inj (hd'.symm.trans hd)
  exact hsame

end

/-- A register `x` that at most one of two commands writes, and writes alike in either order, ends alike. The orders
are `s`, `a`, `b` and `s`, `c`, `d`; `I` and `J` say whether the first and the second command write it. -/
theorem register_eq_in_either_order {α : Type} {I J : Prop} {s a b c d : α} (hIJ : I → ¬ J)
    (hsa : ¬ I → a = s) (hab : ¬ J → b = a) (hsc : ¬ J → c = s) (hcd : ¬ I → d = c)
    (hI : I → d = a) (hJ : J → b = c) : b = d := by
  by_cases hi : I
  · rw [hab (hIJ hi), hI hi]
  · by_cases hj : J
    · rw [hJ hj, hcd hi]
    · rw [hab hj, hsa hi, hcd hi, hsc hj]

/-- Settles O25: each of the two requests ends as it would without the other before it, and keeps the other's unit. -/
theorem commandsOnDifferentUnitsCommute : Obligations.CommandsOnDifferentUnitsCommute := by
  intro i j ri rj s a b c d hdi hdj hij ha hb hc hd
  obtain ⟨iResp, iSf, iMc⟩ := request_same_after_other_unit hdi hdj hij ha hc hd
  obtain ⟨jResp, jSf, jMc⟩ := request_same_after_other_unit hdj hdi hij.symm hc ha hb
  obtain ⟨aSf, aMc⟩ := request_keeps_other_units hdi ha
  obtain ⟨bSf, bMc⟩ := request_keeps_other_units hdj hb
  obtain ⟨cSf, cMc⟩ := request_keeps_other_units hdj hc
  obtain ⟨dSf, dMc⟩ := request_keeps_other_units hdi hd
  have apart : ∀ u, unitOf i = u → unitOf j ≠ u := fun _ hi hj => hij (hi.trans hj.symm)
  exact ⟨iResp.symm, jResp, register_eq_in_either_order (apart .sf) aSf bSf cSf dSf iSf jSf,
    register_eq_in_either_order (apart .mc) aMc bMc cMc dMc iMc jMc⟩

/-! ### The hosts (R70) -/

/-- Host `h` has a command waiting. -/
def Waiting (h : Nat) (s : State) : Prop := ∃ p, s.hosts[h]? = some p ∧ p.issued ≠ []

theorem waiting_ready {h : Nat} {s : State} (hw : Waiting h s) : h ∈ readyHosts s := by
  obtain ⟨p, hp, hne⟩ := hw
  exact mem_readyHosts hp hne

/-- A host's turn is a function of its own entry. -/
theorem turn_congr {x : Nat} {s t : State} (hx : t.hosts[x]? = s.hosts[x]?) : turn t x = turn s x := by
  simp only [turn, hx]

/-- What the taking of a command of host `j`, executed or discarded, does to the arbitration: one choice more, and a
next turn of `j` that comes after it. -/
structure Took (j : Nat) (s t : State) : Prop where
  isHost : j < s.hosts.length
  hostCount : t.hosts.length = s.hosts.length
  choices : t.choices = s.choices + 1
  others : ∀ x, x ≠ j → t.hosts[x]? = s.hosts[x]?
  turn : s.choices + 1 ≤ turn t j

section
variable {h j : Nat} {s t : State}

theorem took_takeFrom {p : HostPort} (hp : s.hosts[j]? = some p) : Took j s (takeFrom j s) where
  isHost := (List.getElem?_eq_some_iff.1 hp).1
  hostCount := by simp
  choices := rfl
  others x hx := by simp [hx.symm]
  turn := turn_takeFrom_self hp

/-- Executing a taken command and delivering its response move no turn. -/
theorem took_deliver {p : HostPort} {r : Request} {u : State} (hp : s.hosts[j]? = some p)
    (hu : execPresented (presented j r s) = .next u) : Took j s (deliver j u) := by
  have frame : OuterFrame (presented j r s) u := execPresented_frame hu
  exact {
    isHost := (List.getElem?_eq_some_iff.1 hp).1
    hostCount := by simp [frame.hosts]
    choices := frame.choices
    others := fun x hx => by simp [frame.hosts, hx.symm]
    turn := by simp [Machine.turn, frame.hosts, hp] }

/-- While a host waits, a step that is not a reset takes a command of a host whose turn is no later than its own. -/
theorem step_of_waiting (hw : Waiting h s) :
    nextEvent s = .reset ∨ ∃ j t, (nextEvent s = .command j ∨ nextEvent s = .discard j) ∧ turn s j ≤ turn s h ∧
      step s = .next t ∧ Took j s t := by
  rcases nextEvent_cases s with ⟨-, -, hr⟩ | ⟨he, -⟩ | ⟨j, he, -, hle⟩ | ⟨j, he, -, hj, hle⟩
  · exact absurd (waiting_ready hw) (by simp [hr])
  · exact .inl he
  · obtain ⟨p, r, rest, hp, -, hr⟩ := nextEvent_command he
    obtain ⟨_, _, hends⟩ := execPresented_ends (presented j r s)
    obtain ⟨u, hu⟩ := ends_next hends
    exact .inr ⟨j, deliver j u, .inl he, hle h (waiting_ready hw), by rw [step_command he hr, hu, answer],
      took_deliver hp hu⟩
  · obtain ⟨p, hp, -⟩ := readyHosts_waiting hj
    exact .inr ⟨j, takeFrom j s, .inr he, hle h (waiting_ready hw), step_discard he, took_takeFrom hp⟩

/-- The hosts whose turn is no later than that of `h`. -/
def notAfter (h : Nat) (s : State) : Finset Nat := {j ∈ Finset.range s.hosts.length | turn s j ≤ turn s h}

/-- A bound on the steps before a command of `h` is taken: the choices left until its turn, in which any host may be
granted again, and then at most one choice for each host whose turn is no later. -/
def stepsLeft (h : Nat) (s : State) : Nat := turn s h - s.choices + (notAfter h s).card

theorem stepsLeft_pos (hw : Waiting h s) : 0 < stepsLeft h s := by
  obtain ⟨p, hp, -⟩ := hw
  obtain ⟨hlt, -⟩ := List.getElem?_eq_some_iff.1 hp
  have hmem : h ∈ notAfter h s := by simp [notAfter, hlt]
  have := Finset.card_pos.2 ⟨h, hmem⟩
  unfold stepsLeft
  omega

theorem took_waiting (hne : h ≠ j) (ht : Took j s t) (hw : Waiting h s) : Waiting h t := by
  obtain ⟨p, hp, hq⟩ := hw
  exact ⟨p, (ht.others h hne).trans hp, hq⟩

/-- Taking a command of a host no later than `h` lets no other host go before `h`. -/
theorem took_notAfter_subset (hne : h ≠ j) (ht : Took j s t) (hle : turn s j ≤ turn s h) :
    notAfter h t ⊆ notAfter h s := by
  intro x hx
  simp only [notAfter, Finset.mem_filter, Finset.mem_range, ht.hostCount, turn_congr (ht.others h hne)] at hx ⊢
  refine ⟨hx.1, ?_⟩
  by_cases hxj : x = j
  · exact hxj ▸ hle
  · exact turn_congr (ht.others x hxj) ▸ hx.2

/-- The bound goes down with every command of another host taken before one of `h`: the turn of `h` comes nearer, or it
has come, and then the host served goes behind `h`. -/
theorem took_stepsLeft_lt (hne : h ≠ j) (ht : Took j s t) (hle : turn s j ≤ turn s h) :
    stepsLeft h t < stepsLeft h s := by
  have hsub := took_notAfter_subset hne ht hle
  have hcard := Finset.card_le_card hsub
  have hturn := turn_congr (ht.others h hne)
  have hchoices := ht.choices
  unfold stepsLeft
  by_cases hdue : s.choices < turn s h
  · omega
  · have hin : j ∈ notAfter h s := by simp [notAfter, ht.isHost, hle]
    have hout : j ∉ notAfter h t := by
      have := ht.turn
      simp only [notAfter, Finset.mem_filter, not_and]
      omega
    have := Finset.card_lt_card (Finset.ssubset_iff_of_subset hsub |>.2 ⟨j, hin, hout⟩)
    omega

end

/-- An arrival leaves a waiting host waiting and moves no host's turn. -/
theorem arrive_keeps (h : Nat) (s : State) (x : Arrival) :
    (Waiting h s → Waiting h (arrive s x)) ∧ stepsLeft h (arrive s x) = stepsLeft h s := by
  cases x with
  | command j r =>
    refine ⟨fun ⟨p, hp, hne⟩ => ?_, by simp [arrive, stepsLeft, notAfter]⟩
    by_cases e : j = h
    · subst e
      exact ⟨{ p with issued := p.issued ++ [r] }, by simp [arrive, hp], by simp⟩
    · exact ⟨p, by simp [arrive, e, hp], hne⟩
  | reset => exact ⟨id, rfl⟩

theorem arrivals_keep {h : Nat} (now : List Arrival) {s : State} (hw : Waiting h s) :
    Waiting h (now.foldl arrive s) ∧ stepsLeft h (now.foldl arrive s) = stepsLeft h s := by
  induction now generalizing s with
  | nil => exact ⟨hw, rfl⟩
  | cons x xs ih =>
    obtain ⟨keepsWaiting, keepsSteps⟩ := arrive_keeps h s x
    obtain ⟨hw', hsteps⟩ := ih (keepsWaiting hw)
    exact ⟨hw', hsteps.trans keepsSteps⟩

/-- A host that waits is served within `stepsLeft` steps, whatever arrives before each of them. -/
theorem servedWithin_of_stepsLeft_le {h : Nat} {arrivals : List (List Arrival)} {s : State} (hw : Waiting h s)
    (hn : stepsLeft h s ≤ arrivals.length) : ServedWithin h arrivals s := by
  induction arrivals generalizing s with
  | nil => exact absurd (stepsLeft_pos hw) (by simpa using hn)
  | cons now later ih =>
    obtain ⟨hw', hsteps⟩ := arrivals_keep now hw
    rw [← hsteps, List.length_cons] at hn
    rcases step_of_waiting hw' with hreset | ⟨j, t, he, hle, hstep, ht⟩
    · exact .inr (.inr (.inl hreset))
    · by_cases hj : h = j
      · subst hj
        exact he.imp_right .inl
      · have hlt := took_stepsLeft_lt hj ht hle
        exact .inr (.inr (.inr ⟨t, hstep, ih (took_waiting hj ht hw') (by omega)⟩))

/-- Settles O60: the bound is `stepsLeft`, which no arrival changes. -/
theorem waitingHostIsServedOrReset : Obligations.WaitingHostIsServedOrReset := by
  intro s h p hp hne
  exact ⟨stepsLeft h s, fun arrivals hlen => servedWithin_of_stepsLeft_le ⟨p, hp, hne⟩ hlen.ge⟩

end Sys2Proof.Machine

/-! PROOFS. The statements of 30_encoding.md: the command word (R80 to R82), its decoding (R91, R92), the records of the
assembler's lines (R93) and the ULID pseudo-commands (R94). -/

namespace Sys2Proof.Machine

/-! ### Words and commands (R80, R82, R92) -/

theorem lenField_lt_of_wellFormed {i : Instr} (h : wellFormed i = true) : lenField i < 32 := by
  cases i with
  | b32Enc n => exact of_decide_eq_true h
  | b32Dec n => exact of_decide_eq_true h
  | _ => exact Nat.zero_lt_succ 31

/-- Each command is a row of just one of the decoder's two tables, found at its own fields. -/
theorem decodeCodec_or_decodeFixed_of_fields (i : Instr) :
    decodeCodec (opcode i) (lenField i) = some i ∨
    (decodeCodec (opcode i) (lenField i) = none ∧ lenField i = 0 ∧ decodeFixed (opcode i) = some i) := by
  cases i with
  | b32Enc n => exact .inl rfl
  | b32Dec n => exact .inl rfl
  | _ => exact .inr ⟨rfl, rfl, rfl⟩

theorem decode_encode {i : Instr} (h : wellFormed i = true) : decode (encode i) = some i := by
  obtain ⟨hopc, hlen, hrsv⟩ := fields_of_encode i
  have hlenNat : (BitVec.ofNat 5 (lenField i)).toNat = lenField i :=
    Nat.mod_eq_of_lt (lenField_lt_of_wellFormed h)
  rw [decode, hopc, hrsv, hlen, hlenNat]
  rcases decodeCodec_or_decodeFixed_of_fields i with hcodec | ⟨hcodec, hzero, hfixed⟩
  · simp [hcodec]
  · rw [hcodec, hzero, hfixed]
    rfl

theorem encode_of_decode {w : CmdWord} {i : Instr} (h : decode w = some i) : wellFormed i = true ∧ encode i = w := by
  obtain ⟨hwf, hw⟩ := decode_cases h
  have hlen := lenField_lt_of_wellFormed hwf
  refine ⟨hwf, BitVec.eq_of_toNat_eq ?_⟩
  rw [encode_toNat, Nat.mod_eq_of_lt hlen, hw]

/-- Settles O1: the encoder's fields are those of the command, and the command's table row gives it back. -/
theorem decodeOfEncodeIsTheCommand : Obligations.DecodeOfEncodeIsTheCommand := fun _ => decode_encode

/-- Settles O2: a word that decodes holds nothing but the command's length operand and operation code. -/
theorem encodeOfDecodeIsTheWord : Obligations.EncodeOfDecodeIsTheWord := fun _ _ => encode_of_decode

/-! ### Match and mask (R92) -/

theorem decode_eq_some_iff {w : CmdWord} {i : Instr} : decode w = some i ↔ wellFormed i = true ∧ encode i = w :=
  ⟨encode_of_decode, fun ⟨hwf, hw⟩ => hw ▸ decode_encode hwf⟩

/-- A command whose every operand fits is decoded from just one word. -/
theorem decode_eq_some_iff_eq_encode {w : CmdWord} {i : Instr} (h : wellFormed i = true) :
    decode w = some i ↔ w = encode i :=
  decode_eq_some_iff.trans ⟨fun ⟨_, hw⟩ => hw.symm, fun hw => ⟨h, hw.symm⟩⟩

/-- A word is its three fields (R80). -/
theorem fields_append (w : CmdWord) : rsvOf w ++ lenOf w ++ opcOf w = w := by
  apply BitVec.eq_of_toNat_eq
  rw [append_toNat, append_toNat, rsvOf_toNat, lenOf_toNat, opcOf_toNat]
  omega

/-- The mask of the codec commands clears `LEN`. -/
theorem and_codecMask (w : CmdWord) : w &&& 0xFFFFE0FF#32 = rsvOf w ++ 0#5 ++ opcOf w :=
  calc w &&& 0xFFFFE0FF#32
      = (rsvOf w ++ lenOf w ++ opcOf w) &&& (BitVec.allOnes 19 ++ 0#5 ++ BitVec.allOnes 8) := by
        rw [fields_append]; rfl
    _ = rsvOf w ++ 0#5 ++ opcOf w := by
        rw [BitVec.and_append, BitVec.and_append, BitVec.and_allOnes, BitVec.and_zero, BitVec.and_allOnes]

theorem and_codecMask_toNat (w : CmdWord) :
    (w &&& 0xFFFFE0FF#32).toNat = w.toNat / 8192 * 8192 + w.toNat % 256 := by
  rw [and_codecMask, append_toNat, append_toNat, rsvOf_toNat, opcOf_toNat, BitVec.toNat_ofNat]
  omega

/-- Decoding a codec command: the mask fixes all but `LEN`, which is the length. -/
theorem decode_eq_codec_iff {w : CmdWord} {i : Instr} {k : Byte} {n : Nat} (hopc : opcode i = k) (hlen : lenField i = n)
    (hwf : wellFormed i = decide (n < 32)) :
    decode w = some i ↔ w &&& 0xFFFFE0FF#32 = k.setWidth 32 ∧ n = w.toNat / 256 % 32 := by
  have hk := k.isLt
  have hword := encode_toNat i
  rw [hopc, hlen] at hword
  rw [decode_eq_some_iff, hwf, decide_eq_true_iff, ← BitVec.toNat_inj, ← BitVec.toNat_inj, and_codecMask_toNat, hword,
    BitVec.toNat_setWidth]
  omega

/-- Settles O3: a LEN-free command has one word, a codec command one for each length. -/
theorem decodeAgreesWithMatchAndMask : Obligations.DecodeAgreesWithMatchAndMask := by
  refine ⟨fun w => ?_, fun w n => ⟨decode_eq_codec_iff rfl rfl rfl, decode_eq_codec_iff rfl rfl rfl⟩⟩
  and_intros <;> exact decode_eq_some_iff_eq_encode rfl

/-! ### Illegal words (R91) -/

theorem decodeCodec_eq_none_iff (o : Byte) (n : Nat) :
    decodeCodec o n = none ↔ o.toNat ≠ 0x30 ∧ o.toNat ≠ 0x31 := by
  unfold decodeCodec
  split_ifs with henc hdec
  · simp [henc]
  · simp [hdec]
  · simpa [← BitVec.toNat_inj] using And.intro henc hdec

theorem decodeFixed_eq_none_iff (o : Byte) : decodeFixed o = none ↔
    o.toNat ∉ [0x01, 0x10, 0x11, 0x12, 0x13, 0x14, 0x15, 0x16, 0x17, 0x20, 0x21, 0x22] := by
  decide +revert

/-- The words with no command: a reserved bit, or no codec command and a `LEN` or no LEN-free command. -/
theorem decode_eq_none_iff (w : CmdWord) : decode w = none ↔
    rsvOf w ≠ 0#19 ∨ decodeCodec (opcOf w) (lenOf w).toNat = none ∧
      (lenOf w ≠ 0#5 ∨ decodeFixed (opcOf w) = none) := by
  unfold decode
  by_cases hrsv : rsvOf w = 0#19
  · cases hcodec : decodeCodec (opcOf w) (lenOf w).toNat with
    | some i => simp [hrsv]
    | none => by_cases hlen : lenOf w = 0#5 <;> simp [hrsv, hlen]
  · simp [hrsv]

theorem decode_eq_none_iff_toNat (w : CmdWord) : decode w = none ↔
    w.toNat / 2 ^ 13 ≠ 0 ∨
    w.toNat % 256 ∉ [0x01, 0x10, 0x11, 0x12, 0x13, 0x14, 0x15, 0x16, 0x17, 0x20, 0x21, 0x22, 0x30, 0x31] ∨
    (w.toNat / 256 % 32 ≠ 0 ∧ w.toNat % 256 ≠ 0x30 ∧ w.toNat % 256 ≠ 0x31) := by
  have hrsv : rsvOf w ≠ 0#19 ↔ w.toNat / 2 ^ 13 ≠ 0 := by rw [Ne, ← BitVec.toNat_inj, rsvOf_toNat]; rfl
  have hlen : lenOf w ≠ 0#5 ↔ w.toNat / 256 % 32 ≠ 0 := by rw [Ne, ← BitVec.toNat_inj, lenOf_toNat]; rfl
  have hopc : w.toNat % 256 ∉
        [0x01, 0x10, 0x11, 0x12, 0x13, 0x14, 0x15, 0x16, 0x17, 0x20, 0x21, 0x22, 0x30, 0x31] ↔
      w.toNat % 256 ∉ [0x01, 0x10, 0x11, 0x12, 0x13, 0x14, 0x15, 0x16, 0x17, 0x20, 0x21, 0x22] ∧
        w.toNat % 256 ≠ 0x30 ∧ w.toNat % 256 ≠ 0x31 := by simp [and_assoc]
  rw [decode_eq_none_iff, decodeCodec_eq_none_iff, decodeFixed_eq_none_iff, opcOf_toNat, hopc, hrsv, hlen]
  tauto

/-- `OPC` is `CMD[7:0]` (R80). -/
theorem opcOf_eq_ofNat (w : CmdWord) : opcOf w = BitVec.ofNat 8 w.toNat := by
  apply BitVec.eq_of_toNat_eq
  rw [opcOf_toNat, BitVec.toNat_ofNat]

theorem execPresented_of_decode_none {s : State} (h : decode s.cmd.word = none) :
    execPresented s = .next (errState s 8 (opcOf s.cmd.word)) :=
  execPresented_of_illegal h

/-- Settles O4: the decoder's fields as integers, the error the model raises, and NOP. -/
theorem illegalWordsAreThoseOfR91AndRaiseIllegalCommand :
    Obligations.IllegalWordsAreThoseOfR91AndRaiseIllegalCommand := by
  refine ⟨decode_eq_none_iff_toNat, fun s h => ?_, fun s h => ?_⟩
  · rw [execPresented_of_decode_none h, opcOf_eq_ofNat]
  · have hnop : decode s.cmd.word = some .nop := (decode_eq_some_iff_eq_encode rfl).2 h
    rw [execPresented_of_decode hnop]
    rfl

/-- Settles O5: the six legal words are the encodings of their commands; of the others, the first has no OPC of the
table, the second a `LEN` it may not have, the third a reserved bit. -/
theorem wordsOfTheTableDecodeToTheirCommands : Obligations.WordsOfTheTableDecodeToTheirCommands :=
  ⟨decode_encode (i := .nop) rfl, decode_encode (i := .sfConfig) rfl, decode_encode (i := .sfSetstate) rfl,
    decode_encode (i := .mcNext) rfl, decode_encode (i := .b32Enc 6) rfl, decode_encode (i := .b32Dec 16) rfl,
    (decode_eq_none_iff_toNat _).2 (.inr (.inl (by decide))),
    (decode_eq_none_iff_toNat _).2 (.inr (.inr (by decide))),
    (decode_eq_none_iff_toNat _).2 (.inl (by decide))⟩

/-! ### The ULID pseudo-commands (R94) -/

section
variable {s : State} {n x : Nat}

/-- B32_ENC of a chunk of either size answers the characters that spell it. -/
theorem exec_b32Enc (hn : n = 6 ∨ n = 10) (s : State) : exec (.b32Enc n) s =
    .next (okState s ⟨lanesOf (encodeChars (encodedLength n) (be (laneList s.cmd.a n))), 0, 0, 0⟩) :=
  if_neg (by omega)

/-- B32_DEC of the ten characters of a 48-bit integer answers its six bytes: no excess bit is set, so neither value of
`P_DEC10_EXCESS` matters. -/
theorem exec_b32Dec_ten (ha : s.cmd.a = lanesOf (encodeChars 10 x)) (hx : x < 256 ^ 6) :
    exec (.b32Dec 10) s = .next (okState s ⟨lanesOf (bytes 6 x), 0, 0, 0⟩) := by
  obtain ⟨hvalid, hvalue⟩ := text_spells (by decide) ha
  have hspelled : x % 32 ^ 10 = x := Nat.mod_eq_of_lt (by omega)
  have hexcess : excessBits x = 0 := by rw [excessBits_eq (by omega)]; omega
  have hwhole : x % 2 ^ 48 = x := Nat.mod_eq_of_lt (by omega)
  rw [exec, execB32Dec_ten hvalid, hvalue, hspelled, decoded10, if_neg fun h => h.1 hexcess, hwhole]
  rfl

/-- B32_DEC of the sixteen characters of an 80-bit integer answers its ten bytes. -/
theorem exec_b32Dec_sixteen (ha : s.cmd.a = lanesOf (encodeChars 16 x)) (hx : x < 256 ^ 10) :
    exec (.b32Dec 16) s = .next (okState s ⟨lanesOf (bytes 10 x), 0, 0, 0⟩) := by
  obtain ⟨hvalid, hvalue⟩ := text_spells (by decide) ha
  have hspelled : x % 32 ^ 16 = x := Nat.mod_eq_of_lt (by omega)
  rw [exec, execB32Dec_sixteen hvalid, hvalue, hspelled]
  rfl

/-- A B32_ENC line answers the characters that spell the bytes it names. -/
theorem b32EncLine_answers {bs : List Byte} (hn : n = 6 ∨ n = 10) (hbs : bs.length = n) (p : Ports) (s : State) :
    ∃ t, execPresented (present ⟨commandOf (.b32Enc n) bs 0 0, p⟩ s) = .next t ∧
      t.resp = ⟨⟨lanesOf (encodeChars (encodedLength n) (be bs)), 0, 0, 0⟩, 0, 0⟩ := by
  have hlanes : laneList (lanesOf bs) n = bs := laneList_lanesOf_length hbs (by omega)
  have hwf : wellFormed (.b32Enc n) = true := decide_eq_true (by omega)
  rw [commandOf_decodes _ _ _ _ (decode_encode hwf), exec_b32Enc hn]
  refine ⟨_, rfl, ?_⟩
  simp [commandOf, hlanes]

/-- The B32_DEC line of the ten characters of six bytes answers the bytes. -/
theorem b32Dec10Line_answers {bs : List Byte} (hbs : bs.length = 6) (p : Ports) (s : State) :
    ∃ t, execPresented (present ⟨b32Dec10Command (encodeChars 10 (be bs)), p⟩ s) = .next t ∧
      t.resp = ⟨⟨lanesOf bs, 0, 0, 0⟩, 0, 0⟩ := by
  have hbound : be bs < 256 ^ 6 := hbs ▸ be_lt bs
  rw [b32Dec10Command, commandOf_decodes _ _ _ _ (decode_encode rfl), exec_b32Dec_ten rfl hbound,
    bytes_of_be_length hbs]
  exact ⟨_, rfl, rfl⟩

/-- The B32_DEC line of the sixteen characters of ten bytes answers the bytes. -/
theorem b32Dec16Line_answers {bs : List Byte} (hbs : bs.length = 10) (p : Ports) (s : State) :
    ∃ t, execPresented (present ⟨b32Dec16Command (encodeChars 16 (be bs)), p⟩ s) = .next t ∧
      t.resp = ⟨⟨lanesOf bs, 0, 0, 0⟩, 0, 0⟩ := by
  have hbound : be bs < 256 ^ 10 := hbs ▸ be_lt bs
  rw [b32Dec16Command, commandOf_decodes _ _ _ _ (decode_encode rfl), exec_b32Dec_sixteen rfl hbound,
    bytes_of_be_length hbs]
  exact ⟨_, rfl, rfl⟩

end

/-- Settles O58: each chunk is spelled and read back by itself, and the text is cut where the first chunk's ten
characters end. -/
theorem ulidTextRoundTrips : Obligations.UlidTextRoundTrips := by
  intro bs p s hbs
  have htime : (bs.take 6).length = 6 := by rw [List.length_take]; omega
  have hrand : (bs.drop 6).length = 10 := by rw [List.length_drop]; omega
  obtain ⟨t, ht, htresp⟩ := b32EncLine_answers (.inl rfl) htime p s
  obtain ⟨u, hu, huresp⟩ := b32EncLine_answers (.inr rfl) hrand p t
  obtain ⟨v, hv, hvresp⟩ := b32Dec10Line_answers htime p u
  obtain ⟨w, hw, hwresp⟩ := b32Dec16Line_answers hrand p v
  have htext : ulidText t.resp u.resp = encodeChars 10 (be (bs.take 6)) ++ encodeChars 16 (be (bs.drop 6)) := by
    rw [ulidText, htresp, huresp]
    exact congrArg₂ _ (laneList_lanesOf_length (encodeChars_length ..) (by decide))
      (laneList_lanesOf_length (encodeChars_length ..) (by decide))
  have hbytes : ulidBytes v.resp w.resp = bs := by
    rw [ulidBytes, hvresp, hwresp, laneList_lanesOf_length htime (by decide),
      laneList_lanesOf_length hrand (by decide), List.take_append_drop]
  refine ⟨t, u, v, w, ht, hu, htext, by simp [htext], ?_, ?_, by rw [hvresp], by rw [hwresp], hbytes⟩
  · rw [htext, List.take_left' (encodeChars_length ..)]
    exact hv
  · rw [htext, List.drop_left' (encodeChars_length ..)]
    exact hw

end Sys2Proof.Machine

/-! PROOFS. The statements of 40_bitpack.md: the gate (R120), SF_CONFIG (R121), SF_CREATE (R122 to R127), the packing
and the order of ids (R128, R129), SF_DECODE (R130, R131), the layout queries (R132 to R134), the minting state (R136,
R137); and SequenceOverflow within a tick (70_reset_and_hazards.md R277). -/

namespace Sys2Proof.Machine

/-! ### The gate (R120) and SF_GETSTATE (R136) -/

/-- Settles O27: the six commands are those whose meaning stands behind the gate. -/
theorem gatedCommandsRaiseNotConfigured : Obligations.GatedCommandsRaiseNotConfigured :=
  fun _ _ => exec_of_needsLayout

/-- Settles O36: SF_GETSTATE has no gate, and its answer is the three registers. -/
theorem sfGetstateReadsTheMintingState : Obligations.SfGetstateReadsTheMintingState :=
  ⟨decode_encode (i := .sfGetstate) rfl, fun _ => rfl⟩

/-! ### Words of integers -/

/-- A word is the word of the integer it holds. -/
theorem eq_ofNat_of_toNat_eq {w n : Nat} {x : BitVec w} (h : x.toNat = n) : x = BitVec.ofNat w n := by
  rw [← h, BitVec.ofNat_toNat, BitVec.setWidth_eq]

/-- The word of an integer that fits it is 0 only for 0. -/
theorem ofNat_ne_zero_of_lt {w v : Nat} (hlt : v < 2 ^ w) (hv : v ≠ 0) : BitVec.ofNat w v ≠ 0 := by
  rw [Ne, ← BitVec.toNat_inj, BitVec.toNat_ofNat, Nat.mod_eq_of_lt hlt]
  simpa using hv

/-- A masked tick as the word of an integer. -/
theorem masked_eq_ofNat (x : U64) (sf : SfUnit) :
    x &&& maskTime sf = BitVec.ofNat 64 (x.toNat % 2 ^ sf.tsBits.toNat) :=
  eq_ofNat_of_toNat_eq (masked_toNat x sf)

/-! ### Error masks (R121, R137) -/

/-- The bits of a mask of up to five violated checks add up, and the sum fits the byte. -/
theorem checkBits_eq_sum : ∀ a b c d e : Bool,
    let v := (if a then 1 else 0) + (if b then 2 else 0) + (if c then 4 else 0) + (if d then 8 else 0) +
      (if e then 16 else 0)
    checkBit a 0x01 ||| checkBit b 0x02 ||| checkBit c 0x04 ||| checkBit d 0x08 ||| checkBit e 0x10 =
      BitVec.ofNat 8 v ∧ v < 2 ^ 8 := by
  decide

/-- The SF_CONFIG mask as the sum of its bits, over the fields of the operand as integers. -/
theorem configViolations_eq_sum (b : U64) :
    let ts := b.toNat % 256
    let gen := b.toNat / 2 ^ 8 % 256
    let seq := b.toNat / 2 ^ 16 % 256
    let crsv := b.toNat / 2 ^ 24 % 256
    let gid := b.toNat / 2 ^ 32
    let v := (if ts + gen + seq ≠ 63 then 1 else 0) + (if gen > 31 then 2 else 0) + (if seq > 31 then 4 else 0) +
      (if gid ≥ 2 ^ gen then 8 else 0) + (if crsv ≠ 0 then 16 else 0)
    configViolations b = BitVec.ofNat 8 v ∧ v < 2 ^ 8 := by
  have hcrsv : configCrsv b ≠ 0 ↔ b.toNat / 2 ^ 24 % 256 ≠ 0 := by
    rw [Ne, ← BitVec.toNat_inj, configCrsv_toNat]; rfl
  simpa only [configViolations, configTs_toNat, configGen_toNat, configSeq_toNat, configGid_toNat, hcrsv,
    decide_eq_true_iff] using checkBits_eq_sum (decide ((configTs b).toNat + (configGen b).toNat +
      (configSeq b).toNat ≠ 63)) (decide ((configGen b).toNat > 31)) (decide ((configSeq b).toNat > 31))
      (decide ((configGid b).toNat ≥ 2 ^ (configGen b).toNat)) (decide (configCrsv b ≠ 0))

/-- The unit SF_CONFIG loads, over the fields of its operand as integers. -/
theorem configured_eq (b : U64) : configured b =
    ⟨true, BitVec.ofNat 6 (b.toNat % 256), BitVec.ofNat 5 (b.toNat / 2 ^ 8 % 256),
      BitVec.ofNat 5 (b.toNat / 2 ^ 16 % 256), BitVec.ofNat 31 (b.toNat / 2 ^ 32), BitVec.ofInt 64 (-1), 0⟩ := by
  rw [← configTs_toNat, ← configGen_toNat, ← configSeq_toNat, ← configGid_toNat]
  simp only [BitVec.ofNat_toNat]
  rfl

/-- Settles O28: the sum of the bits of the violated checks is the mask SF_CONFIG tests and reports. -/
theorem sfConfigLoadsALayoutOrReportsEveryViolation : Obligations.SfConfigLoadsALayoutOrReportsEveryViolation := by
  refine ⟨decode_encode (i := .sfConfig) rfl, fun s => ?_⟩
  intro ts gen seq crsv gid v
  obtain ⟨hmask, hlt⟩ : configViolations s.cmd.b = BitVec.ofNat 8 v ∧ v < 2 ^ 8 := configViolations_eq_sum s.cmd.b
  refine ⟨fun hsum hgen hseq hgid hcrsv => ?_, fun hv => ?_⟩
  · have hv : v = 0 := by simp [v, hsum, hcrsv, Nat.not_lt.2 hgen, Nat.not_lt.2 hseq, Nat.not_le.2 hgid]
    have hok : ¬ configViolations s.cmd.b ≠ 0 := by simp [hmask, hv]
    rw [exec, execSfConfig, if_neg hok, configured_eq]
    rfl
  · have hbad : configViolations s.cmd.b ≠ 0 := hmask ▸ ofNat_ne_zero_of_lt hlt hv
    rw [exec, execSfConfig, if_pos hbad, hmask]
    rfl

/-- The SF_SETSTATE mask as the sum of its bits, over the ranges of the layout. -/
theorem setstateViolations_eq_sum (sf : SfUnit) (b c : U64) :
    let v := (if b.toInt < -1 ∨ b.toInt > 2 ^ sf.tsBits.toNat - 1 then 1 else 0) +
      (if c.toNat > 2 ^ sf.seqBits.toNat - 1 then 2 else 0)
    setstateViolations sf b c = BitVec.ofNat 8 v ∧ v < 2 ^ 8 := by
  simpa [setstateViolations, maskTime_toInt, maskSequence_toNat, checkBit] using
    checkBits_eq_sum (decide (b.toInt < -1 ∨ b.toInt > (maskTime sf).toInt))
      (decide (c.toNat > (maskSequence sf).toNat)) false false false

/-- Settles O37: the sum of the bits of the violated checks is the mask SF_SETSTATE tests and reports. -/
theorem sfSetstateForcesThePairOrReportsEveryViolation :
    Obligations.SfSetstateForcesThePairOrReportsEveryViolation := by
  refine ⟨decode_encode (i := .sfSetstate) rfl, fun s => exec_of_needsLayout rfl, fun s hc => ?_⟩
  intro lt sq v
  obtain ⟨hmask, hlt⟩ : setstateViolations s.sf s.cmd.b s.cmd.c = BitVec.ofNat 8 v ∧ v < 2 ^ 8 :=
    setstateViolations_eq_sum s.sf s.cmd.b s.cmd.c
  refine ⟨fun hlo hhi hsq => ?_, fun hv => ?_⟩
  · have hv : v = 0 := by simp [v, Int.not_lt.2 hlo, Int.not_lt.2 hhi, Nat.not_lt.2 hsq]
    have hok : ¬ setstateViolations s.sf s.cmd.b s.cmd.c ≠ 0 := by simp [hmask, hv]
    rw [exec, execSfSetstate, gated_of_valid hc, if_neg hok, ← BitVec.ofNat_toNat]
    rfl
  · have hbad : setstateViolations s.sf s.cmd.b s.cmd.c ≠ 0 := hmask ▸ ofNat_ne_zero_of_lt hlt hv
    rw [exec, execSfSetstate, gated_of_valid hc, if_pos hbad, hmask]
    rfl

/-! ### SF_CREATE (R122 to R127) -/

section
variable {ticks ts : U64} {s : State}

theorem createFrom_of_negative (h : ticks.toInt < 0) : createFrom ticks ts s = .next (errState s 2 1) := if_pos h

section
variable (h0 : 0 ≤ ticks.toInt)
include h0

theorem createFrom_of_backward (h : ts.toInt < s.sf.lastTick.toInt) :
    createFrom ticks ts s = .next (errState s 2 2) := by
  rw [createFrom, if_neg (Int.not_lt.2 h0), if_pos h]
  rfl

theorem createFrom_of_full (h : ts = s.sf.lastTick) (hseq : (maskSequence s.sf).toNat ≤ s.sf.sequence.toNat) :
    createFrom ticks ts s = .next (errState s 3 0) := by
  rw [createFrom, if_neg (Int.not_lt.2 h0), if_neg (h ▸ lt_irrefl _), if_pos h, if_pos hseq]
  rfl

theorem createFrom_of_sameTick (h : ts = s.sf.lastTick) (hseq : s.sf.sequence.toNat < (maskSequence s.sf).toNat) :
    createFrom ticks ts s = mint ts (sameTick s.sf) s := by
  rw [createFrom, if_neg (Int.not_lt.2 h0), if_neg (h ▸ lt_irrefl _), if_pos h, if_neg (Nat.not_le.2 hseq)]

theorem createFrom_of_newTick (h : s.sf.lastTick.toInt < ts.toInt) :
    createFrom ticks ts s = mint ts (newTick s.sf ts) s := by
  have hne : ts ≠ s.sf.lastTick := fun e => lt_irrefl _ (e ▸ h)
  rw [createFrom, if_neg (Int.not_lt.2 h0), if_neg (Int.not_lt.2 h.le), if_neg hne]

end

/-- Past its gate SF_CREATE samples `tick_in` once and masks the sample (R123). -/
theorem exec_sfCreate_of_valid (hc : s.sf.cfgValid = true) : exec .sfCreate s =
    createFrom s.ports.tickIn (s.ports.tickIn &&& maskTime s.sf) (tickSampled s) := by
  rw [exec, execSfCreate, gated_of_valid hc]
  rfl

end

/-- Settles O29: past the gate each clause is one branch of the steps after the sample, whose masked tick is
`tick_in` modulo `2^SF_TS_BITS` and whose sequence limit is `2^SF_SEQ_BITS - 1`. -/
theorem sfCreateMintsOrFailsInStepOrder : Obligations.SfCreateMintsOrFailsInStepOrder := by
  refine ⟨decode_encode (i := .sfCreate) rfl, fun s => exec_of_needsLayout rfl, fun s hc => ?_⟩
  intro ticks ts last sampled pack
  have htsInt : (s.ports.tickIn &&& maskTime s.sf).toInt = (ts : Int) := masked_toInt _ _
  have hsame : (ts : Int) = last → s.ports.tickIn &&& maskTime s.sf = s.sf.lastTick := fun h =>
    BitVec.toInt_inj.1 (htsInt.trans h)
  have hmax := maskSequence_toNat s.sf
  have hmint : ∀ sf, mint (s.ports.tickIn &&& maskTime s.sf) sf sampled = .next (okState { sampled with sf := sf }
      ⟨zeroLanes, packId sf (BitVec.ofNat 64 ts) sf.genId sf.sequence, 0, 0⟩) := fun sf => by
    rw [masked_eq_ofNat]; rfl
  rw [exec_sfCreate_of_valid hc]
  refine ⟨createFrom_of_negative, fun h0 h => ?_, fun h0 h hseq => ?_, fun h0 h hseq => ?_, fun h0 h => ?_⟩
  · exact createFrom_of_backward h0 (htsInt.trans_lt h)
  · exact createFrom_of_full h0 (hsame h) (hmax.trans_le hseq)
  · exact (createFrom_of_sameTick (s := sampled) h0 (hsame h) (hseq.trans_eq hmax.symm)).trans (hmint (sameTick s.sf))
  · refine (createFrom_of_newTick (s := sampled) h0 (h.trans_eq htsInt.symm)).trans ((hmint (newTick s.sf _)).trans ?_)
    rw [masked_eq_ofNat]
    rfl

/-- SF_CREATE runs out of sequence only in the tick it minted last, with the sequence at its limit (R125). -/
theorem createFrom_overflow (ticks ts : U64) (s : State) :
    EndsIn (fun u => u.resp.err = 3 → ts = s.sf.lastTick ∧ (maskSequence s.sf).toNat ≤ s.sf.sequence.toNat)
      (createFrom ticks ts s) := by
  refine endsIn_ite (fun _ => endsIn_raise (by simp [errCode])) fun _ => ?_
  refine endsIn_ite (fun _ => endsIn_raise (by simp [errCode])) fun _ => ?_
  refine endsIn_ite (fun hts => ?_) fun _ => endsIn_respond (by simp)
  exact endsIn_ite (fun hseq => endsIn_raise fun _ => ⟨hts, hseq⟩) fun _ => endsIn_respond (by simp)

theorem exec_sfCreate_overflow {s t : State} (h : exec .sfCreate s = .next t) (herr : t.resp.err = 3) :
    s.sf.cfgValid = true ∧ s.ports.tickIn &&& maskTime s.sf = s.sf.lastTick ∧
      (maskSequence s.sf).toNat ≤ s.sf.sequence.toNat := by
  cases hc : s.sf.cfgValid
  · obtain rfl := Host.Outcome.next.inj ((exec_of_needsLayout rfl hc).symm.trans h)
    simp at herr
  · rw [exec_sfCreate_of_valid hc] at h
    exact ⟨rfl, endsIn_next (createFrom_overflow _ _ (tickSampled s)) h herr⟩

/-- Settles O38: the failed command leaves the SF unit, so the same masked tick finds the sequence at its limit
again. -/
theorem sequenceOverflowRepeatsWithinTheTick : Obligations.SequenceOverflowRepeatsWithinTheTick := by
  intro s t r h herr hr h0 htick
  obtain ⟨hc, hlast, hseq⟩ := exec_sfCreate_overflow h herr
  have hsf : t.sf = s.sf := (unit_of_error h (by simp [herr])).1
  have hmasked : r.ports.tickIn &&& maskTime t.sf = t.sf.lastTick := by
    rw [hsf, ← hlast, masked_eq_ofNat, masked_eq_ofNat, htick]
  refine ⟨errState (tickSampled (present r t)) 3 0, ?_, rfl, hsf⟩
  rw [execPresented_present hr, exec_sfCreate_of_valid (s := present r t) (hsf ▸ hc)]
  exact createFrom_of_full h0 hmasked (s := tickSampled (present r t)) (hsf ▸ hseq)

/-! ### Two fields of an integer -/

section
variable {a k x y : Nat}

theorem mul_two_pow_add_lt (hx : x < 2 ^ a) (hy : y < 2 ^ k) : x * 2 ^ k + y < 2 ^ (a + k) := by
  rw [Nat.mul_comm, Nat.pow_add]
  exact Nat.mul_add_lt_mul_of_lt_of_lt hx hy

theorem mul_two_pow_add_div (hy : y < 2 ^ k) : (x * 2 ^ k + y) / 2 ^ k = x := by
  rw [Nat.mul_comm, Nat.mul_add_div (Nat.two_pow_pos k), Nat.div_eq_of_lt hy, Nat.add_zero]

/-- Integers of two fields are in the order of their upper fields, then of their lower. -/
theorem mul_two_pow_add_lt_of_lex {x' y' : Nat} (hy : y < 2 ^ k) (h : x < x' ∨ x = x' ∧ y < y') :
    x * 2 ^ k + y < x' * 2 ^ k + y' := by
  rcases h with hx | ⟨rfl, hlt⟩
  · have hnext : (x + 1) * 2 ^ k ≤ x' * 2 ^ k := Nat.mul_le_mul_right _ hx
    rw [Nat.add_one_mul] at hnext
    omega
  · omega

/-- A field below bit `n` does not see the bits from `n` up. -/
theorem div_mod_two_pow_of_low_eq {n : Nat} (hn : k + a ≤ n) (h : x % 2 ^ n = y % 2 ^ n) :
    x / 2 ^ k % 2 ^ a = y / 2 ^ k % 2 ^ a := by
  have hlow : ∀ z : Nat, z / 2 ^ k % 2 ^ a = z % 2 ^ n % 2 ^ (k + a) / 2 ^ k := fun z => by
    rw [Nat.mod_mod_of_dvd _ (Nat.pow_dvd_pow 2 hn), Nat.pow_add, Nat.mod_mul_right_div_self]
  rw [hlow, hlow, h]

end

/-! ### Packing and the order of ids (R128, R129) -/

/-- The id under a layout of 63 bits, as the integer of its three fields. -/
theorem packId_toNat {sf : SfUnit} {ts : U64} {gid sq : BitVec 31}
    (hsum : sf.tsBits.toNat + sf.genBits.toNat + sf.seqBits.toNat = 63) (hts : ts.toNat < 2 ^ sf.tsBits.toNat)
    (hgid : gid.toNat < 2 ^ sf.genBits.toNat) (hsq : sq.toNat < 2 ^ sf.seqBits.toNat) :
    (packId sf ts gid sq).toNat =
      ts.toNat * 2 ^ (sf.genBits.toNat + sf.seqBits.toNat) + (gid.toNat * 2 ^ sf.seqBits.toNat + sq.toNat) := by
  refine packId_fields ?_ hgid hsq
  have hlt : ts.toNat * 2 ^ shiftTime sf + 0 < 2 ^ (sf.tsBits.toNat + shiftTime sf) :=
    mul_two_pow_add_lt hts (Nat.two_pow_pos _)
  rw [shiftTime, show sf.tsBits.toNat + (sf.genBits.toNat + sf.seqBits.toNat) = 63 by omega] at hlt
  rw [shiftTime]
  omega

/-- Settles O30: the id is the integer of three fields, each below its width. -/
theorem packedFieldsDoNotOverlap : Obligations.PackedFieldsDoNotOverlap := by
  intro sf ts gid sq hsum hts hgid hsq
  have hid := packId_toNat hsum hts hgid hsq
  have hlt := mul_two_pow_add_lt hts (mul_two_pow_add_lt hgid hsq)
  refine ⟨rfl, hid.trans (Nat.add_assoc ..).symm, ?_⟩
  rwa [hid, ← hsum, Nat.add_assoc]

/-- The id of a successful SF_CREATE, as the integer of the tick, generator id and sequence it leaves. -/
theorem exec_sfCreate_id_toNat {s t : State} (inv : LayoutInv s.sf) (h : exec .sfCreate s = .next t)
    (hok : t.resp.err = 0) :
    t.resp.payload.w0.toNat = t.sf.lastTick.toNat * 2 ^ (s.sf.genBits.toNat + s.sf.seqBits.toNat) +
      (s.sf.genId.toNat * 2 ^ s.sf.seqBits.toNat + t.sf.sequence.toNat) := by
  obtain ⟨hc, -, hid, -⟩ := execSfCreate_minted h hok
  obtain ⟨hts, hsq, -⟩ := execSfCreate_ranges h hok
  obtain ⟨hsum, hgid⟩ := inv hc
  rw [hid, packId_toNat hsum hts hgid hsq]

/-- A minting state that is not earlier has the same layout, which is legal if the first one's is. -/
theorem mintLe_layoutInv {a b : SfUnit} (h : MintLe a b) (inv : LayoutInv a) : LayoutInv b := by
  rw [LayoutInv, h.valid, h.ts, h.gen, h.seq, h.gid]
  exact inv

/-- A successful SF_CREATE moves the minting state past every one that is not later than the one it found. -/
theorem exec_sfCreate_past {a : SfUnit} {u v : State} (hle : MintLe a u.sf) (h : exec .sfCreate u = .next v)
    (hok : v.resp.err = 0) :
    a.lastTick.toInt < v.sf.lastTick.toInt ∨
      (a.lastTick = v.sf.lastTick ∧ a.sequence.toNat < v.sf.sequence.toNat) := by
  obtain ⟨-, hforward⟩ := execSfCreate_forward h hok
  rcases hle.le with htick | ⟨htick, hseq⟩ <;> rcases hforward with htick' | ⟨htick', hseq'⟩
  · exact .inl (htick.trans htick')
  · exact .inl (htick' ▸ htick)
  · exact .inl (htick ▸ htick')
  · exact .inr ⟨htick.trans htick', hseq.trans_lt hseq'⟩

/-- Of two successful SF_CREATE the later answers the greater id, when what lies between them leaves the layout and
never moves the minting state back: ids of one layout are in the order of their tick, then of their sequence. -/
theorem exec_sfCreate_id_lt {s t u v : State} (inv : LayoutInv s.sf) (ht : exec .sfCreate s = .next t)
    (htok : t.resp.err = 0) (hle : MintLe t.sf u.sf) (hv : exec .sfCreate u = .next v) (hvok : v.resp.err = 0) :
    t.resp.payload.w0.toNat < v.resp.payload.w0.toNat := by
  obtain ⟨hst, -⟩ := execSfCreate_forward ht htok
  have hsu : MintLe s.sf u.sf := mintLe_trans hst hle
  obtain ⟨hc, -⟩ := execSfCreate_minted ht htok
  obtain ⟨-, hgid⟩ := inv hc
  obtain ⟨-, hseqLt, htInt⟩ := execSfCreate_ranges ht htok
  obtain ⟨-, -, hvInt⟩ := execSfCreate_ranges hv hvok
  rw [exec_sfCreate_id_toNat inv ht htok, exec_sfCreate_id_toNat (mintLe_layoutInv hsu inv) hv hvok, hsu.gen, hsu.seq,
    hsu.gid]
  refine mul_two_pow_add_lt_of_lex (mul_two_pow_add_lt hgid hseqLt) ?_
  rcases exec_sfCreate_past hle hv hvok with htick | ⟨htick, hseq⟩
  · exact .inl (by omega)
  · exact .inr ⟨congrArg BitVec.toNat htick, Nat.add_lt_add_left hseq _⟩

/-- Settles O31: the commands between leave the layout and never move the minting state back. -/
theorem mintedIdsStrictlyIncrease : Obligations.MintedIdsStrictlyIncrease := by
  intro s t u v r r' between inv hr ht htok hrun hr' hv hvok
  rw [execPresented_present hr] at ht
  rw [execPresented_present hr'] at hv
  have hle : MintLe t.sf u.sf := run_mintLe hrun
  exact exec_sfCreate_id_lt (s := present r s) (u := present r' u) inv ht htok hle hv hvok

/-! ### SF_DECODE (R130, R131) -/

/-- With a layout loaded SF_DECODE answers the three fields of its operand. -/
theorem exec_sfDecode_of_valid {s : State} (hc : s.sf.cfgValid = true) : exec .sfDecode s = .next (okState s
    ⟨zeroLanes,
      BitVec.ofNat 64 (s.cmd.b.toNat / 2 ^ (s.sf.genBits.toNat + s.sf.seqBits.toNat) % 2 ^ s.sf.tsBits.toNat),
      BitVec.ofNat 64 (s.cmd.b.toNat / 2 ^ s.sf.seqBits.toNat % 2 ^ s.sf.genBits.toNat),
      BitVec.ofNat 64 (s.cmd.b.toNat % 2 ^ s.sf.seqBits.toNat)⟩) := by
  rw [exec, execSfDecode, gated_of_valid hc, eq_ofNat_of_toNat_eq (timeField_toNat s.sf s.cmd.b),
    eq_ofNat_of_toNat_eq (generatorField_toNat s.sf s.cmd.b), eq_ofNat_of_toNat_eq (sequenceField_toNat s.sf s.cmd.b)]
  rfl

/-- Settles O33: each field is a quotient and remainder, and under a layout of 63 bits each lies below bit 63. -/
theorem sfDecodeSplitsTheId : Obligations.SfDecodeSplitsTheId := by
  refine ⟨decode_encode (i := .sfDecode) rfl, fun s => exec_of_needsLayout rfl, fun s => exec_sfDecode_of_valid, ?_⟩
  intro s s' t t' hc inv hsf hid ht ht'
  obtain ⟨hsum, -⟩ := inv hc
  rw [exec_sfDecode_of_valid hc] at ht
  rw [exec_sfDecode_of_valid (hsf ▸ hc), hsf] at ht'
  obtain rfl := Host.Outcome.next.inj ht
  obtain rfl := Host.Outcome.next.inj ht'
  have htime := div_mod_two_pow_of_low_eq (k := s.sf.genBits.toNat + s.sf.seqBits.toNat) (a := s.sf.tsBits.toNat)
    (by omega) hid
  have hgen := div_mod_two_pow_of_low_eq (k := s.sf.seqBits.toNat) (a := s.sf.genBits.toNat) (by omega) hid
  have hseq := div_mod_two_pow_of_low_eq (k := 0) (a := s.sf.seqBits.toNat) (by omega) hid
  simp only [Nat.pow_zero, Nat.div_one] at hseq
  rw [okState_resp, okState_resp, htime, hgen, hseq]

/-- Settles O32: the id is the integer of the three fields, each below its width, and SF_DECODE divides it at the
widths. -/
theorem decodeOfAMintedIdRoundTrips : Obligations.DecodeOfAMintedIdRoundTrips := by
  intro s t u inv ht hok hc hts hgen hseq hb
  obtain ⟨hvalid, htick, -⟩ := execSfCreate_minted ht hok
  obtain ⟨htickLt, hseqLt, -⟩ := execSfCreate_ranges ht hok
  obtain ⟨-, hgid⟩ := inv hvalid
  have hid := exec_sfCreate_id_toNat inv ht hok
  have hlow := mul_two_pow_add_lt hgid hseqLt
  have htime : u.cmd.b.toNat / 2 ^ (s.sf.genBits.toNat + s.sf.seqBits.toNat) % 2 ^ s.sf.tsBits.toNat =
      s.ports.tickIn.toNat % 2 ^ s.sf.tsBits.toNat := by
    rw [hb, hid, mul_two_pow_add_div hlow, Nat.mod_eq_of_lt htickLt, htick, masked_toNat]
    rfl
  have hsplit : u.cmd.b.toNat =
      (t.sf.lastTick.toNat * 2 ^ s.sf.genBits.toNat + s.sf.genId.toNat) * 2 ^ s.sf.seqBits.toNat +
        t.sf.sequence.toNat := by
    rw [hb, hid, Nat.pow_add]
    ring
  have hgenerator : u.cmd.b.toNat / 2 ^ s.sf.seqBits.toNat % 2 ^ s.sf.genBits.toNat = s.sf.genId.toNat := by
    rw [hsplit, mul_two_pow_add_div hseqLt, Nat.mul_add_mod_of_lt hgid]
  have hsequence : u.cmd.b.toNat % 2 ^ s.sf.seqBits.toNat = t.sf.sequence.toNat := by
    rw [hsplit, Nat.mul_add_mod_of_lt hseqLt]
  rw [exec_sfDecode_of_valid hc, hts, hgen, hseq, htime, hgenerator, hsequence, BitVec.ofNat_toNat, BitVec.ofNat_toNat]

/-! ### The layout queries (R132 to R134) -/

/-- A mask of `n` bits keeps its value in a wider word. -/
theorem ones_setWidth {w v n : Nat} (hn : n ≤ v) (hv : v ≤ w) : (ones v n).setWidth w = ones w n := by
  apply BitVec.eq_of_toNat_eq
  rw [BitVec.toNat_setWidth_of_le hv, ones_toNat hn, ones_toNat (hn.trans hv)]

/-- A byte put above the `k` bits of a packed word adds to it. -/
theorem ofNat_or_shiftLeft {w k x y : Nat} (hx : x < 2 ^ k) :
    BitVec.ofNat w x ||| (BitVec.ofNat w y <<< k) = BitVec.ofNat w (x + y * 2 ^ k) := by
  have hshift : BitVec.ofNat w y <<< k = BitVec.ofNat w (y * 2 ^ k) :=
    BitVec.eq_of_toNat_eq (by simp [Nat.shiftLeft_eq, Nat.mod_mul_mod])
  rw [hshift, ← BitVec.ofNat_or, Nat.or_comm, mul_or_eq_add hx, Nat.add_comm]

/-- SF_QLAYOUT's `W0` as an integer, where each byte but the last holds its width (30_encoding.md R90). -/
theorem packWidths_eq {ts gen seq total : Nat} (hts : ts < 2 ^ 8) (hgen : gen < 2 ^ 8) (hseq : seq < 2 ^ 8) :
    packWidths ts gen seq total = BitVec.ofNat 64 (ts + gen * 2 ^ 8 + seq * 2 ^ 16 + total * 2 ^ 24) := by
  rw [packWidths, ofNat_or_shiftLeft hts, ofNat_or_shiftLeft (by omega), ofNat_or_shiftLeft (by omega)]

/-- Settles O34: each query answers derived values, whose words are those of their integers because each fits. -/
theorem layoutQueriesAnswerTheDerivedValues : Obligations.LayoutQueriesAnswerTheDerivedValues := by
  refine ⟨⟨decode_encode (i := .sfQcap) rfl, decode_encode (i := .sfQmask) rfl, decode_encode (i := .sfQlayout) rfl⟩,
    fun s hc => ⟨exec_of_needsLayout rfl hc, exec_of_needsLayout rfl hc, exec_of_needsLayout rfl hc⟩, fun s hc => ?_⟩
  intro t g q
  have ht := s.sf.tsBits.isLt
  have hg := s.sf.genBits.isLt
  have hq := s.sf.seqBits.isLt
  refine ⟨?_, ?_, ?_⟩
  · rw [exec, execSfQcap, gated_of_valid hc]
    rfl
  · rw [exec, execSfQmask, gated_of_valid hc, maskGenerator, maskSequence, ones_setWidth (by omega) (by decide),
      ones_setWidth (by omega) (by decide)]
    rfl
  · have hshifts : packShifts (g + q) q = BitVec.ofNat 64 (g + q + q * 2 ^ 8) := ofNat_or_shiftLeft (by omega)
    rw [exec, execSfQlayout, gated_of_valid hc, packWidths_eq (by omega) (by omega) (by omega)]
    exact congrArg (fun w => Host.Outcome.next (okState s ⟨zeroLanes, _, _, w⟩)) hshifts

end Sys2Proof.Machine

/-! PROOFS. The statements of 41_monotonic.md: MC_NEXT (R170 to R174), MC_GETSTATE and MC_SETSTATE (R175, R176), and
what the spec derives of the counter (R177 to R179); the exhausted counter and the ULIDs of 70_reset_and_hazards.md
(R279, R280). -/

namespace Sys2Proof.Machine

/-! ### MC_NEXT (R170 to R174) -/

section
variable {s t : State}

theorem bytes10_ofNat {n : Nat} (hn : n < 2 ^ 80) : bytes10 (BitVec.ofNat 80 n) = bytes 10 n := by
  rw [bytes10, BitVec.toNat_ofNat, Nat.mod_eq_of_lt hn]

/-- The answer with a counter given as the integer it holds. -/
theorem answerNext_ofNat {n : Nat} (hn : n < 2 ^ 80) (m last : U64) (s : State) :
    answerNext m ⟨true, last, BitVec.ofNat 80 n⟩ s = .next (okState
      { s with mc := ⟨true, last, BitVec.ofNat 80 n⟩ } ⟨lanesOf (bytes 10 n), m, last, 0⟩) := by
  rw [answerNext_eq, bytes10_ofNat hn]

/-- The fresh branch (R171, R172). -/
theorem exec_mcNext_of_fresh (hfresh : s.mc.primed = false ∨ s.mc.lastMillis.toInt < s.ports.millisIn.toInt) :
    exec .mcNext s = answerNext s.ports.millisIn
      ⟨true, s.ports.millisIn, BitVec.ofNat 80 (be s.ports.randIn.toList % 2 ^ (80 - s.build.headroom.val))⟩
      (randSampled (millisSampled s)) := by
  have hrand : withHeadroom s.build.headroom.val (randSample s) =
      BitVec.ofNat 80 (be s.ports.randIn.toList % 2 ^ (80 - s.build.headroom.val)) := by
    apply eq_ofNat_of_toNat_eq
    rw [withHeadroom_toNat, randSample, u80Of_toNat (by simp)]
  have hdraws : drawsFresh s.mc (millisSample s) = true := drawsFresh_iff.2 hfresh
  rw [exec, execMcNext, if_pos hdraws, ← hrand]
  rfl

section
variable (hp : s.mc.primed = true) (hm : s.ports.millisIn.toInt ≤ s.mc.lastMillis.toInt)
include hp hm

/-- On a primed counter at a millisecond that is not later MC_NEXT does not draw fresh (R171). -/
theorem exec_mcNext_of_notFresh : exec .mcNext s = incrementDraw s.ports.millisIn (millisSampled s) := by
  have hfresh : ¬ drawsFresh s.mc (millisSample s) = true := by
    rw [drawsFresh_iff, not_or, Int.not_lt, Bool.not_eq_false]
    exact ⟨hp, hm⟩
  rw [exec, execMcNext, if_neg hfresh]
  rfl

/-- The increment branch with no carry out (R173). -/
theorem exec_mcNext_of_increment (hlt : s.mc.lastRand.toNat + 1 < 2 ^ 80) :
    exec .mcNext s = answerNext s.ports.millisIn
      ⟨true, s.mc.lastMillis, BitVec.ofNat 80 (s.mc.lastRand.toNat + 1)⟩ (millisSampled s) := by
  have hcarry : ¬ carryOut (incremented (millisSampled s).mc.lastRand) = 1 :=
    fun h => hlt.ne ((carryOut_incremented _).1 h)
  rw [exec_mcNext_of_notFresh hp hm, incrementDraw, if_neg hcarry, ← hp]
  rfl

/-- The increment branch with a carry out (R174). -/
theorem exec_mcNext_of_exhausted (heq : s.mc.lastRand.toNat + 1 = 2 ^ 80) :
    exec .mcNext s = .next (errState (millisSampled s) 6 0) := by
  have hcarry : carryOut (incremented (millisSampled s).mc.lastRand) = 1 := (carryOut_incremented _).2 heq
  rw [exec_mcNext_of_notFresh hp hm, incrementDraw, if_pos hcarry]
  rfl

end

end

/-- A draw of fewer than 81 bits fits the counter. -/
theorem mod_two_pow_sub_lt (x h : Nat) : x % 2 ^ (80 - h) < 2 ^ 80 :=
  (Nat.mod_lt x (Nat.two_pow_pos _)).trans_le (Nat.pow_le_pow_right (by decide) (Nat.sub_le 80 h))

/-- Settles O39: each clause is one branch of MC_NEXT, and the counter it answers with fits its 80 bits. -/
theorem mcNextDrawsIncrementsOrFails : Obligations.McNextDrawsIncrementsOrFails := by
  refine ⟨decode_encode (i := .mcNext) rfl, fun s => ?_⟩
  intro m fresh next sampled
  refine ⟨fun hfresh => ?_, fun hp hm hlt => ?_, fun hp hm heq => exec_mcNext_of_exhausted hp hm heq⟩
  · exact (exec_mcNext_of_fresh hfresh).trans (answerNext_ofNat (mod_two_pow_sub_lt _ _) ..)
  · exact (exec_mcNext_of_increment hp hm hlt).trans (answerNext_ofNat hlt ..)

/-! ### The carry, byte by byte (R173) -/

@[simp] theorem bumpBytes_length (bs : List Byte) : (bumpBytes bs).2.length = bs.length := by
  induction bs with
  | nil => rfl
  | cons x xs ih =>
    rw [bumpBytes]
    split <;> simp_all

/-- Adding one to a byte, as integers: it rolls over exactly at 0xFF. -/
theorem add_one_toNat_carry (x : Byte) : (decide (x = 0xFF#8)).toNat * 256 + (x + 1).toNat = x.toNat + 1 := by
  revert x
  decide

/-- The carry out and the bumped bytes, read as one integer, are one more than the bytes. -/
theorem be_bumpBytes (bs : List Byte) :
    (bumpBytes bs).1.toNat * 256 ^ bs.length + be (bumpBytes bs).2 = be bs + 1 := by
  induction bs with
  | nil => rfl
  | cons x xs ih =>
    have hlen := bumpBytes_length xs
    rw [bumpBytes, List.length_cons, be_cons]
    split
    · next ys heq =>
      have hx := add_one_toNat_carry x
      simp only [heq, Bool.toNat_true, Nat.one_mul] at ih hlen
      rw [be_cons, hlen, pow_succ']
      linear_combination 256 ^ xs.length * hx + ih
    · next ys heq =>
      simp only [heq, Bool.toNat_false, Nat.zero_mul] at ih hlen ⊢
      rw [be_cons, hlen]
      omega

/-- The bumped bytes of a counter: a carry leaves byte 0 exactly at all ones, and else they spell one more. -/
theorem bumpBytes_bytes10_cases (r : BitVec 80) :
    ((bumpBytes (bytes10 r)).1 = true ∧ r.toNat + 1 = 2 ^ 80) ∨
    ((bumpBytes (bytes10 r)).1 = false ∧ r.toNat + 1 < 2 ^ 80 ∧
      (bumpBytes (bytes10 r)).2 = bytes 10 (r.toNat + 1)) := by
  have hlen : (bytes10 r).length = 10 := bytes_length 10 r.toNat
  have hbumped : (bumpBytes (bytes10 r)).2.length = 10 := by rw [bumpBytes_length, hlen]
  have hsum := be_bumpBytes (bytes10 r)
  have hlt := be_lt (bumpBytes (bytes10 r)).2
  rw [be_bytes10, hlen] at hsum
  rw [hbumped] at hlt
  cases hc : (bumpBytes (bytes10 r)).1
  · have hbe : be (bumpBytes (bytes10 r)).2 = r.toNat + 1 := by simpa [hc] using hsum
    refine .inr ⟨rfl, by omega, ?_⟩
    rw [← hbe, bytes_of_be_length hbumped]
  · have := r.isLt
    simp only [hc, Bool.toNat_true] at hsum
    exact .inl ⟨rfl, by omega⟩

/-- The sum modulo `2^80` (R173). -/
theorem ofNat_toNat_add_one (r : BitVec 80) : BitVec.ofNat 80 (r.toNat + 1) = r + 1 :=
  BitVec.eq_of_toNat_eq (by simp)

/-- Settles O41: the carry out of byte 0 is the carry MC_NEXT tests, and without one the bumped bytes are those of the
sum it stores. -/
theorem incrementCarriesFromTheLastByteUpward : Obligations.IncrementCarriesFromTheLastByteUpward := by
  intro s hp hm bumped
  rcases bumpBytes_bytes10_cases s.mc.lastRand with ⟨hcarry, heq⟩ | ⟨hcarry, hlt, hbytes⟩
  · refine ⟨_, exec_mcNext_of_exhausted hp hm heq, fun _ => ⟨rfl, rfl, ?_⟩, fun h => ?_⟩
    · rw [← ofNat_toNat_add_one, heq]
      rfl
    · exact absurd (hcarry.symm.trans h) (by decide)
  · rw [exec_mcNext_of_increment hp hm hlt, answerNext_ofNat hlt]
    refine ⟨_, rfl, fun h => ?_, fun _ => ⟨rfl, ?_, ?_, ofNat_toNat_add_one _⟩⟩
    · exact absurd (hcarry.symm.trans h) (by decide)
    · exact (laneList_lanesOf_length (bytes_length ..) (by decide)).trans hbytes.symm
    · exact (bytes10_ofNat hlt).trans hbytes.symm

/-! ### What a successful MC_NEXT answers (R170, R177) -/

section
variable {s t : State} (h : exec .mcNext s = .next t) (hok : t.resp.err = 0)
include h hok

/-- A successful MC_NEXT leaves a primed counter and answers its bytes and its millisecond. -/
theorem exec_mcNext_answer :
    t.mc.primed = true ∧ randomnessOf t.resp = t.mc.lastRand.toNat ∧ t.resp.payload.w1 = t.mc.lastMillis := by
  obtain ⟨c, hprimed, hadv⟩ : ∃ c : McUnit, c.primed = true ∧ Advanced s t c := by
    rcases execMcNext_cases h with ⟨-, hadv⟩ | ⟨-, -, -, hadv⟩ | ⟨-, -, -, -, herr, -⟩
    · exact ⟨_, rfl, hadv⟩
    · exact ⟨_, rfl, hadv⟩
    · exact absurd (herr.symm.trans hok) (by decide)
  rw [randomnessOf_advanced hadv, hadv.mc, hadv.resp]
  exact ⟨hprimed, rfl, rfl⟩

/-- A successful MC_NEXT that does not draw fresh adds one to the counter. -/
theorem exec_mcNext_lastRand_of_notFresh (hp : s.mc.primed = true)
    (hm : s.ports.millisIn.toInt ≤ s.mc.lastMillis.toInt) : t.mc.lastRand.toNat = s.mc.lastRand.toNat + 1 := by
  rcases execMcNext_cases h with ⟨hfresh, -⟩ | ⟨-, -, hne, hadv⟩ | ⟨-, -, -, -, herr, -⟩
  · rcases hfresh with hp' | hlt
    · exact absurd (hp.symm.trans hp') (by decide)
    · exact absurd hlt (Int.not_lt.2 hm)
  · rw [hadv.mc]
    exact incremented_toNat hne
  · exact absurd (herr.symm.trans hok) (by decide)

/-- A successful MC_NEXT moves the counter past every one that is not later than the one it found. -/
theorem exec_mcNext_past {c : McUnit} (hle : CounterLe c s.mc) : c.lastMillis.toInt < t.mc.lastMillis.toInt ∨
    (c.lastMillis = t.mc.lastMillis ∧ c.lastRand.toNat < t.mc.lastRand.toNat) := by
  obtain ⟨-, hforward⟩ := execMcNext_forward h hle.primed hok
  rcases hle.le with hms | ⟨hms, hrand⟩ <;> rcases hforward with hms' | ⟨hms', hrand'⟩
  · exact .inl (hms.trans hms')
  · exact .inl (hms' ▸ hms)
  · exact .inl (hms ▸ hms')
  · exact .inr ⟨hms.trans hms', hrand.trans_lt hrand'⟩

end

/-- Settles O42: the commands between leave the counter, whose value the second MC_NEXT adds one to. -/
theorem incrementReturnsExactlyOneMore : Obligations.IncrementReturnsExactlyOneMore := by
  intro s t u v r r' between hr ht htok hrun hr' hm hv hvok
  rw [execPresented_present hr] at ht
  rw [execPresented_present hr'] at hv
  obtain ⟨hprimed, hrand, -⟩ := exec_mcNext_answer ht htok
  obtain ⟨-, hrand', -⟩ := exec_mcNext_answer hv hvok
  have hmc : u.mc = t.mc := run_mc hrun
  have hnext := exec_mcNext_lastRand_of_notFresh (s := present r' u) hv hvok (hmc ▸ hprimed) hm
  rw [hrand', hnext, present_mc, hmc, hrand]

/-! ### The headroom budget (R178) -/

/-- On a primed counter with room for them, MC_NEXT commands at milliseconds that are not later all succeed, and each
adds one. -/
theorem run_of_increments {rs : List Request} {s : State} (hp : s.mc.primed = true)
    (hrs : ∀ r ∈ rs, decode r.command.word = some .mcNext ∧ r.ports.millisIn.toInt ≤ s.mc.lastMillis.toInt)
    (hroom : s.mc.lastRand.toNat + rs.length < 2 ^ 80) :
    ∃ u, RunAvoiding (fun _ x => x.resp.err ≠ 0) rs s u ∧
      u.mc.lastRand.toNat = s.mc.lastRand.toNat + rs.length := by
  induction rs generalizing s with
  | nil => exact ⟨s, rfl, rfl⟩
  | cons r rs ih =>
    obtain ⟨⟨hr, hm⟩, hrs⟩ := List.forall_mem_cons.1 hrs
    rw [List.length_cons] at hroom
    have hlt : s.mc.lastRand.toNat + 1 < 2 ^ 80 := by omega
    obtain ⟨t, ht, hok, hmc⟩ : ∃ t, execPresented (present r s) = .next t ∧ t.resp.err = 0 ∧
        t.mc = ⟨true, s.mc.lastMillis, BitVec.ofNat 80 (s.mc.lastRand.toNat + 1)⟩ :=
      ⟨_, (execPresented_present hr s).trans (exec_mcNext_of_increment (s := present r s) hp hm hlt), rfl, rfl⟩
    have hrand : t.mc.lastRand.toNat = s.mc.lastRand.toNat + 1 := by
      rw [hmc, BitVec.toNat_ofNat, Nat.mod_eq_of_lt hlt]
    obtain ⟨u, hrun, hu⟩ := ih (s := t) (by rw [hmc]) (by rwa [hmc]) (by omega)
    refine ⟨u, ⟨t, ht, not_not.2 hok, hrun⟩, ?_⟩
    rw [hu, hrand, List.length_cons]
    omega

/-- A fresh draw leaves a primed counter with its headroom (R172). -/
theorem exec_mcNext_headroom {s t : State}
    (hfresh : s.mc.primed = false ∨ s.mc.lastMillis.toInt < s.ports.millisIn.toInt) (h : exec .mcNext s = .next t) :
    t.mc.primed = true ∧ t.mc.lastRand.toNat < 2 ^ (80 - s.build.headroom.val) := by
  rw [exec_mcNext_of_fresh hfresh, answerNext_eq] at h
  obtain rfl := Host.Outcome.next.inj h
  refine ⟨rfl, ?_⟩
  rw [okState_mc, BitVec.toNat_ofNat]
  exact (Nat.mod_le _ _).trans_lt (Nat.mod_lt _ (Nat.two_pow_pos _))

/-- Settles O43: a fresh draw is below `2^(80 - P_HEADROOM)`, so the budget leaves the counter below `2^80`. -/
theorem headroomBudgetOfAFreshDraw : Obligations.HeadroomBudgetOfAFreshDraw := by
  intro s t rs hfresh ht hrs hbudget
  obtain ⟨hp, hdraw⟩ := exec_mcNext_headroom hfresh ht
  have hle : 2 ^ (80 - s.build.headroom.val) ≤ 2 ^ 80 := Nat.pow_le_pow_right (by decide) (Nat.sub_le ..)
  exact ⟨hdraw, run_of_increments hp hrs (by omega)⟩

/-! ### The exhausted counter (R174, R279) -/

/-- What may change an exhausted counter `c`: a successful MC_SETSTATE, or an MC_NEXT at a later millisecond. -/
def revivesCounter (c : McUnit) (r : Request) (u : State) : Prop :=
  forcesCounter r u ∨ (decode r.command.word = some .mcNext ∧ c.lastMillis.toInt < r.ports.millisIn.toInt)

/-- Any other command leaves an exhausted counter. -/
theorem request_mc_of_exhausted {r : Request} {s u : State} (h : execPresented (present r s) = .next u)
    (hp : s.mc.primed = true) (hmax : s.mc.lastRand.toNat + 1 = 2 ^ 80) (hb : ¬ revivesCounter s.mc r u) :
    u.mc = s.mc := by
  by_cases hw : writesCounter r u
  · obtain ⟨hok, hd | hd⟩ := hw
    · have hm : r.ports.millisIn.toInt ≤ s.mc.lastMillis.toInt := Int.not_lt.1 fun hlt => hb (.inr ⟨hd, hlt⟩)
      rw [execPresented_present hd, exec_mcNext_of_exhausted (s := present r s) hp hm hmax] at h
      obtain rfl := Host.Outcome.next.inj h
      rfl
    · exact absurd (.inl ⟨hok, hd⟩) hb
  · exact request_mc h hw

/-- So does any run of them. -/
theorem run_mc_of_exhausted {c : McUnit} {rs : List Request} {s t : State} (hp : c.primed = true)
    (hmax : c.lastRand.toNat + 1 = 2 ^ 80) (hs : s.mc = c) (h : RunAvoiding (revivesCounter c) rs s t) : t.mc = c := by
  induction rs generalizing s with
  | nil => rwa [show t = s from h]
  | cons r rs ih =>
    obtain ⟨u, hu, hb, hrun⟩ := h
    subst hs
    exact ih (request_mc_of_exhausted hu hp hmax hb) hrun

/-- Settles O44: the run leaves the counter at all ones, where MC_NEXT does not draw fresh and the carry leaves
byte 0. -/
theorem exhaustedCounterStaysExhausted : Obligations.ExhaustedCounterStaysExhausted := by
  intro s t rs hp hmax hrun
  have hmc : t.mc = s.mc := run_mc_of_exhausted hp hmax rfl hrun
  refine ⟨hmc, fun hm => ⟨_, exec_mcNext_of_exhausted ?_ ?_ ?_, rfl, rfl, hmc⟩⟩ <;> rwa [hmc]

/-! ### The order of milliseconds and ULIDs (R179, R280) -/

/-- Settles O45: no command but a successful MC_SETSTATE moves a primed counter back. -/
theorem counterMillisecondNeverGoesDown : Obligations.CounterMillisecondNeverGoesDown := by
  intro s t rs hp hrun
  have hle : CounterLe s.mc t.mc := run_counterLe hrun hp
  exact ⟨hle.primed, counterLe_millis hle⟩

/-- A ULID as an integer: the low 48 bits of `W1` above the 80 bits of randomness. -/
theorem be_ulidOf (resp : Response) :
    be (ulidOf resp) = resp.payload.w1.toNat % 2 ^ 48 * 2 ^ 80 + randomnessOf resp := by
  rw [ulidOf, be_append, be_bytes_mod, laneList_length]
  rfl

theorem randomnessOf_lt (resp : Response) : randomnessOf resp < 2 ^ 80 := by
  simpa [randomnessOf] using be_lt (laneList resp.payload.q 10)

/-- A millisecond that fits six bytes is spelt by them. -/
theorem toNat_mod_of_toInt_range {x : U64} (h0 : 0 ≤ x.toInt) (h48 : x.toInt < 2 ^ 48) :
    ((x.toNat % 2 ^ 48 : Nat) : Int) = x.toInt := by
  have hcond := BitVec.toInt_eq_toNat_cond x
  have hlt := x.isLt
  split at hcond <;> omega

/-- Settles O46: the commands between never move the counter back and the second MC_NEXT moves it forward, and ULIDs
are in the order of their millisecond, then of their randomness. -/
theorem ulidsFromW1StrictlyIncrease : Obligations.UlidsFromW1StrictlyIncrease := by
  intro s t u v r r' between hr ht htok hrun hr' hv hvok h0 h48
  rw [execPresented_present hr] at ht
  rw [execPresented_present hr'] at hv
  obtain ⟨hprimed, hrand, hw1⟩ := exec_mcNext_answer ht htok
  obtain ⟨-, hrand', hw1'⟩ := exec_mcNext_answer hv hvok
  have hle : CounterLe t.mc u.mc := run_counterLe hrun hprimed
  have hpast := exec_mcNext_past (s := present r' u) hv hvok hle
  rw [be_ulidOf, be_ulidOf]
  refine mul_two_pow_add_lt_of_lex (randomnessOf_lt _) ?_
  rw [hrand, hrand']
  rw [← hw1, ← hw1'] at hpast
  rcases hpast with hms | ⟨hms, hlt⟩
  · have ht48 := toNat_mod_of_toInt_range h0 (hms.trans h48)
    have hv48 := toNat_mod_of_toInt_range (h0.trans hms.le) h48
    exact .inl (by omega)
  · exact .inr ⟨by rw [hms], hlt⟩

/-! ### MC_GETSTATE and MC_SETSTATE (R175, R176) -/

/-- Settles O47: MC_GETSTATE has one branch, and its answer is the three registers. -/
theorem mcGetstateReadsTheCounter : Obligations.McGetstateReadsTheCounter :=
  ⟨decode_encode (i := .mcGetstate) rfl, fun _ => rfl⟩

/-- The excess bits of operand `C` are 0 exactly when only `C[0]` can be set (30_encoding.md R88). -/
theorem setstateExcess_eq_zero_iff (c : Command) : setstateExcess c = 0 ↔ c.c.toNat < 2 := by
  have := c.c.isLt
  rw [setstateExcess, ← BitVec.toNat_inj, BitVec.extractLsb'_toNat, Nat.shiftRight_eq_div_pow]
  show c.c.toNat / 2 ^ 1 % 2 ^ 63 = 0 ↔ c.c.toNat < 2
  omega

theorem setstatePrimed_of_lt {c : Command} (h : c.c.toNat < 2) : setstatePrimed c = decide (c.c.toNat = 1) := by
  rw [setstatePrimed, BitVec.getLsbD, Nat.testBit_zero, Nat.mod_eq_of_lt h]

/-- Settles O48: MC_SETSTATE tests the excess bits of `C`, and without any `C` is its bit 0. -/
theorem mcSetstateForcesTheCounterOrFails : Obligations.McSetstateForcesTheCounterOrFails := by
  refine ⟨decode_encode (i := .mcSetstate) rfl, fun s => ⟨fun hlt => ?_, fun hge => ?_⟩⟩
  · have hok : ¬ setstateExcess s.cmd ≠ 0 := not_not.2 ((setstateExcess_eq_zero_iff _).2 hlt)
    rw [exec, execMcSetstate, if_neg hok, setstatePrimed_of_lt hlt]
    rfl
  · have hbad : setstateExcess s.cmd ≠ 0 := fun h => Nat.not_lt.2 hge ((setstateExcess_eq_zero_iff _).1 h)
    rw [exec, execMcSetstate, if_pos hbad]
    rfl

end Sys2Proof.Machine

/-! PROOFS. The statements of 42_base32.md: the two tables (R190, R191), B32_ENC (R192 to R196), B32_DEC (R197 to R203)
and the laws of the pair (R204). -/

namespace Sys2Proof.Machine

/-! ### The tables (R190, R191) -/

theorem exists_digit_of_mem_alphabet {c : Byte} (h : c ∈ alphabet) : ∃ v < 32, alphabetAt v = c := by
  obtain ⟨v, hv, hc⟩ := List.mem_iff_getElem.1 h
  exact ⟨v, hv, (List.getElem_eq_getD 0).symm.trans hc⟩

/-- A code outside the alphabet is found at no digit, so its entry is the sentinel. -/
theorem decodeAt_of_notMem {c : Byte} (h : c ∉ alphabet) : decodeAt c = sentinel := by
  have hnone : alphabet.findIdx? (· = c) = none :=
    List.findIdx?_eq_none_iff.2 fun x hx => decide_eq_false fun hxc => h (hxc ▸ hx)
  rw [decodeAt_eq, decodeEntry, digitFrom_eq_findIdx?, hnone]
  rfl

theorem alphabetAt_strictMono : ∀ v < 32, ∀ w < v, (alphabetAt w).toNat < (alphabetAt v).toNat := by decide

/-- Settles O49: the alphabet by evaluation, DECODE_TABLE from its inverse on digits and its sentinel elsewhere. -/
theorem decodeTableInvertsTheAlphabet : Obligations.DecodeTableInvertsTheAlphabet := by
  refine ⟨by decide, rfl, by simp [decodeTable], alphabetAt_strictMono, fun c => ⟨fun v hv hc => ?_, fun hc => ?_⟩⟩
  · rw [← hc, decodeAt_alphabetAt v hv]
  · refine decodeAt_of_notMem fun hmem => ?_
    obtain ⟨v, hv, hvc⟩ := exists_digit_of_mem_alphabet hmem
    exact hc v hv hvc

/-! ### The words of the codec commands (R192, R197) -/

/-- The word `OPC | LEN << 8` of a command with an operation code and a length. -/
theorem codecWord_eq_encode {i : Instr} {n : Nat} (hlen : lenField i = n) (hn : n < 32) :
    (opcode i).setWidth 32 ||| (BitVec.ofNat 32 n <<< 8) = encode i := by
  have hopc : (opcode i).toNat < 2 ^ 8 := (opcode i).isLt
  have hopc32 : (opcode i).toNat % 2 ^ 32 = (opcode i).toNat := Nat.mod_eq_of_lt (by omega)
  have hshift : n % 2 ^ 32 * 2 ^ 8 % 2 ^ 32 = n * 2 ^ 8 := by omega
  apply BitVec.eq_of_toNat_eq
  rw [encode_toNat, hlen, Nat.mod_eq_of_lt hn, BitVec.or_comm, BitVec.toNat_or, BitVec.toNat_shiftLeft,
    BitVec.toNat_ofNat, BitVec.toNat_setWidth, Nat.shiftLeft_eq, hopc32, hshift, mul_or_eq_add hopc]
  rfl

theorem decode_b32EncWord {n : Nat} (hn : n < 32) :
    decode (0x00000030#32 ||| (BitVec.ofNat 32 n <<< 8)) = some (.b32Enc n) :=
  (congrArg decode (codecWord_eq_encode (i := .b32Enc n) rfl hn)).trans (decode_encode (decide_eq_true hn))

theorem decode_b32DecWord {n : Nat} (hn : n < 32) :
    decode (0x00000031#32 ||| (BitVec.ofNat 32 n <<< 8)) = some (.b32Dec n) :=
  (congrArg decode (codecWord_eq_encode (i := .b32Dec n) rfl hn)).trans (decode_encode (decide_eq_true hn))

/-! ### B32_ENC (R192 to R194) -/

/-- Lane `j` of a text, and the 0 above it (30_encoding.md R89). -/
theorem lane_encodeChars {j : Nat} (k v : Nat) (hj : j < 16) : lane (lanesOf (encodeChars k v)) j =
    if j < k then alphabetAt (v / 32 ^ (k - 1 - j) % 32) else 0 := by
  rw [lane_lanesOf _ hj]
  split
  · exact encodeChars_getD ‹_›
  · exact List.getD_eq_default _ _ (by rw [encodeChars_length]; omega)

/-- Settles O50: the text of either chunk read lane by lane, and the length check. -/
theorem b32EncSpellsTheChunk : Obligations.B32EncSpellsTheChunk := by
  refine ⟨fun n hn => decode_b32EncWord hn, fun s => ⟨⟨_, exec_b32Enc (.inl rfl) s, fun j hj => ?_⟩,
    ⟨_, exec_b32Enc (.inr rfl) s, fun j hj => ?_⟩, fun n h6 h10 => if_pos ⟨h6, h10⟩⟩⟩
  · exact lane_encodeChars 10 _ hj
  · exact (lane_encodeChars 16 _ hj).trans (if_pos hj)

/-! ### The integer of a text (R197) -/

/-- The integer that the first `n` lanes spell. -/
def textValue (a : Lanes) (n : Nat) : Nat := digitsValue ((laneList a n).map decodeAt)

section
variable {a : Lanes} {n : Nat}

theorem textValue_eq_sum (a : Lanes) (hn : n ≤ 16) :
    textValue a n = ((List.range n).map fun j => (decodeAt (lane a j)).toNat * 32 ^ (n - 1 - j)).sum := by
  rw [textValue, decodedLanes a hn, digitsValue_range]

variable (hn : n ≤ 16) (hv : ∀ j < n, (decodeAt (lane a j)).toNat < 32)
include hn hv

theorem valid_laneList : ∀ c ∈ laneList a n, (decodeAt c).toNat < 32 := by
  rw [laneList_eq_map a hn]
  simpa using hv

theorem textValue_lt : textValue a n < 32 ^ n := lanesValue_lt hn hv

/-- Digit `j` of the integer is the digit of character `j`. -/
theorem textValue_digit {j : Nat} (hj : j < n) :
    textValue a n / 32 ^ (n - 1 - j) % 32 = (decodeAt (lane a j)).toNat := by
  have hlen : ((laneList a n).map decodeAt).length = n := by rw [List.length_map, laneList_length, Nat.min_eq_left hn]
  have hdigits := digits_digitsValue (ds := (laneList a n).map decodeAt) (by simpa using valid_laneList hn hv)
  have hchar : (((laneList a n).map decodeAt).map BitVec.toNat)[j]? = some (decodeAt (lane a j)).toNat := by
    rw [decodedLanes a hn]
    simp [hj]
  rw [hlen] at hdigits
  exact Option.some.inj ((digits_getElem hj).symm.trans ((congrArg (·[j]?) hdigits).trans hchar))

/-- The text of the integer is the characters (R204). -/
theorem encodeChars_textValue : encodeChars n (textValue a n) = laneList a n := by
  have h := encodeChars_digitsValue (valid_laneList hn hv)
  rwa [laneList_length, Nat.min_eq_left hn] at h

end

/-! ### B32_DEC (R197 to R199, R202, R203) -/

section
variable {s t : State} {n : Nat}

/-- The lowest invalid character is reported, whatever stands above it. -/
theorem exec_b32Dec_of_invalid {j : Nat} (hn : n = 10 ∨ n = 16) (hj : j < n)
    (hbelow : ∀ i < j, (decodeAt (lane s.cmd.a i)).toNat < 32) (hinv : 32 ≤ (decodeAt (lane s.cmd.a j)).toNat) :
    exec (.b32Dec n) s = .next (errState s 4 (BitVec.ofNat 8 j)) := by
  rw [exec, execB32Dec, if_neg (by omega), decodeDigits, firstInvalid_lanes_some (by omega) hj hbelow hinv]
  rfl

/-- A text B32_DEC decodes has no invalid character. -/
theorem valid_of_exec_b32Dec (hn : n = 10 ∨ n = 16) (h : exec (.b32Dec n) s = .next t) (herr : t.resp.err = 0) :
    ∀ j < n, (decodeAt (lane s.cmd.a j)).toNat < 32 := by
  by_contra hex
  push Not at hex
  obtain ⟨hj, hinv⟩ := Nat.find_spec hex
  have hbelow : ∀ i < Nat.find hex, (decodeAt (lane s.cmd.a i)).toNat < 32 := fun i hi =>
    Nat.lt_of_not_le fun h32 => Nat.find_min hex hi ⟨hi.trans hj, h32⟩
  obtain rfl := Host.Outcome.next.inj (h.symm.trans (exec_b32Dec_of_invalid hn hj hbelow hinv))
  exact absurd herr (errCode_ne_zero .invalidArgument)

theorem exec_b32Dec_sixteen_of_valid (hv : ∀ j < 16, (decodeAt (lane s.cmd.a j)).toNat < 32) :
    exec (.b32Dec 16) s = .next (okState s ⟨lanesOf (bytes 10 (textValue s.cmd.a 16)), 0, 0, 0⟩) :=
  execB32Dec_sixteen hv

section
variable (hv : ∀ j < 10, (decodeAt (lane s.cmd.a j)).toNat < 32)
include hv

theorem excessBits_textValue : excessBits (textValue s.cmd.a 10) = textValue s.cmd.a 10 / 2 ^ 48 :=
  excessBits_eq (textValue_lt (by decide) hv)

/-- Ten valid characters with no excess, or with excess the build discards. -/
theorem exec_b32Dec_ten_of_fits (h : textValue s.cmd.a 10 / 2 ^ 48 = 0 ∨ s.build.excess = .discard) :
    exec (.b32Dec 10) s = .next (okState s ⟨lanesOf (bytes 6 (textValue s.cmd.a 10 % 2 ^ 48)), 0, 0, 0⟩) := by
  have hno : ¬ (excessBits (textValue s.cmd.a 10) ≠ 0 ∧ s.build.excess = .reject) := by
    rw [excessBits_textValue hv]
    rintro ⟨hexcess, hreject⟩
    exact h.elim hexcess fun hdiscard => by simp [hreject] at hdiscard
  exact (execB32Dec_ten hv).trans (if_neg hno)

/-- Ten valid characters with excess the build rejects. -/
theorem exec_b32Dec_ten_of_excess (h : textValue s.cmd.a 10 / 2 ^ 48 ≠ 0) (hr : s.build.excess = .reject) :
    exec (.b32Dec 10) s = .next (errState s 4 0x80) :=
  (execB32Dec_ten hv).trans (if_pos ⟨by rwa [← excessBits_textValue hv] at h, hr⟩)

/-- The excess bits are the top two of the first digit's five (R202). -/
theorem textValue_excess : textValue s.cmd.a 10 / 2 ^ 48 = (decodeAt (lane s.cmd.a 0)).toNat / 8 := by
  have hfirst := textValue_digit (by decide) hv (j := 0) (by decide)
  have hlt := textValue_lt (by decide) hv
  omega

theorem textValue_overRange_iff : textValue s.cmd.a 10 / 2 ^ 48 ≠ 0 ↔ 8 ≤ (decodeAt (lane s.cmd.a 0)).toNat := by
  rw [textValue_excess hv]
  omega

end

end

/-- Settles O52: the branches of B32_DEC in their order, with the integer of the text as a sum. -/
theorem b32DecReadsTheTextOrFails : Obligations.B32DecReadsTheTextOrFails := by
  refine ⟨fun n hn => decode_b32DecWord hn, fun s => ?_⟩
  dsimp only
  rw [← textValue_eq_sum _ (by decide : 10 ≤ 16), ← textValue_eq_sum _ (by decide : 16 ≤ 16)]
  exact ⟨fun n h10 h16 => if_pos ⟨h10, h16⟩, fun n j => exec_b32Dec_of_invalid, exec_b32Dec_ten_of_fits,
    exec_b32Dec_ten_of_excess, exec_b32Dec_sixteen_of_valid⟩

/-- Settles O53: the excess is in the first digit, and each of the two outcomes is one branch of B32_DEC. -/
theorem overRangeMeansFirstDigitEightOrMore : Obligations.OverRangeMeansFirstDigitEightOrMore := by
  intro s t hv h
  refine ⟨textValue_overRange_iff hv, ?_⟩
  by_cases hfits : textValue s.cmd.a 10 / 2 ^ 48 = 0 ∨ s.build.excess = .discard
  · obtain rfl := Host.Outcome.next.inj (h.symm.trans (exec_b32Dec_ten_of_fits hv hfits))
    have hfirst := hfits.imp_left fun hzero => Nat.lt_of_not_le fun h8 => (textValue_overRange_iff hv).2 h8 hzero
    exact ⟨iff_of_true rfl hfirst, fun _ => rfl, .inl rfl⟩
  · obtain ⟨hexcess, hnot⟩ := not_or.1 hfits
    have hreject : s.build.excess = .reject := by
      cases hb : s.build.excess with
      | discard => exact absurd hb hnot
      | reject => rfl
    obtain rfl := Host.Outcome.next.inj (h.symm.trans (exec_b32Dec_ten_of_excess hv hexcess hreject))
    have hfirst := (textValue_overRange_iff hv).1 hexcess
    have herr : (errState s 4 0x80).resp.err ≠ 0 := errCode_ne_zero .invalidArgument
    exact ⟨iff_of_false herr fun hor => hor.elim (Nat.not_lt.2 hfirst) hnot, fun h0 => absurd h0 herr, .inr ⟨rfl, rfl⟩⟩

/-! ### Digits of two parts -/

@[simp] theorem digits_zero (v : Nat) : digits 0 v = [] := rfl

theorem digits_append (m x : Nat) {n y : Nat} (hy : y < 32 ^ n) :
    digits (m + n) (x * 32 ^ n + y) = digits m x ++ digits n y := by
  induction n generalizing y with
  | zero => simp [Nat.lt_one_iff.1 hy]
  | succ n ih =>
    have hpow : x * 32 ^ (n + 1) = x * 32 ^ n * 32 := by rw [pow_succ, Nat.mul_assoc]
    have hdiv : (x * 32 ^ (n + 1) + y) / 32 = x * 32 ^ n + y / 32 := by omega
    have hmod : (x * 32 ^ (n + 1) + y) % 32 = y % 32 := by omega
    have hy32 : y / 32 < 32 ^ n := by rw [pow_succ] at hy; omega
    rw [← Nat.add_assoc, digits_succ, digits_succ n y, hdiv, hmod, ih hy32, List.append_assoc]

/-! ### The fixed formulas (R195, R196, R200, R201) -/

/-- The eight digits of five bytes by the formulas of R196; those of R195 after its first two. -/
def encodeGroup (p0 p1 p2 p3 p4 : Byte) : List Byte :=
  [p0 >>> 3, ((p0 &&& 0x07) <<< 2) ||| (p1 >>> 6), (p1 >>> 1) &&& 0x1F,
    ((p1 &&& 0x01) <<< 4) ||| (p2 >>> 4), ((p2 &&& 0x0F) <<< 1) ||| (p3 >>> 7), (p3 >>> 2) &&& 0x1F,
    ((p3 &&& 0x03) <<< 3) ||| (p4 >>> 5), p4 &&& 0x1F]

/-- The five bytes of eight digits by the formulas of R201; those of R200 after its first. -/
def decodeGroup (q0 q1 q2 q3 q4 q5 q6 q7 : Byte) : List Byte :=
  [(q0 <<< 3) ||| (q1 >>> 2), ((q1 &&& 0x03) <<< 6) ||| (q2 <<< 1) ||| (q3 >>> 4),
    ((q3 &&& 0x0F) <<< 4) ||| (q4 >>> 1), ((q4 &&& 0x01) <<< 7) ||| (q5 <<< 2) ||| (q6 >>> 3),
    ((q6 &&& 0x07) <<< 5) ||| q7]

theorem digitsValue_append (xs ys : List Byte) :
    digitsValue (xs ++ ys) = digitsValue xs * 32 ^ ys.length + digitsValue ys := by
  induction ys using List.reverseRecOn with
  | nil => simp
  | append_singleton ys d ih =>
    rw [← List.append_assoc, digitsValue_append_singleton, digitsValue_append_singleton, ih, List.length_append,
      List.length_singleton, pow_succ]
    ring

theorem and_low_toNat (x : Byte) {n : Nat} (hn : n ≤ 8) : (x &&& BitVec.ofNat 8 (2 ^ n - 1)).toNat = x.toNat % 2 ^ n :=
  and_ones_toNat x hn

theorem ushiftRight_toNat (x : Byte) (k : Nat) : (x >>> k).toNat = x.toNat / 2 ^ k := by
  rw [BitVec.toNat_ushiftRight, Nat.shiftRight_eq_div_pow]

/-- Of a field of `m` bits the high `k` are left. -/
theorem ushiftRight_lt {y : Byte} {m k : Nat} (hk : k ≤ m) (hy : y.toNat < 2 ^ m) : (y >>> (m - k)).toNat < 2 ^ k := by
  rwa [ushiftRight_toNat, Nat.div_lt_iff_lt_mul (Nat.two_pow_pos _), ← Nat.pow_add, Nat.add_sub_cancel' hk]

/-- A field put above a lower one: of the upper, the bits that fit the byte are kept. -/
theorem shiftLeft_or_toNat {x y : Byte} {k : Nat} (hk : k ≤ 8) (hy : y.toNat < 2 ^ k) :
    (x <<< k ||| y).toNat = x.toNat % 2 ^ (8 - k) * 2 ^ k + y.toNat := by
  have hshift : x.toNat <<< k % 2 ^ 8 = x.toNat % 2 ^ (8 - k) * 2 ^ k := by
    rw [Nat.shiftLeft_eq, ← Nat.mul_mod_mul_right, ← Nat.pow_add, Nat.sub_add_cancel hk]
  rw [BitVec.toNat_or, BitVec.toNat_shiftLeft, hshift, mul_or_eq_add hy]

/-- A byte split between two digits: its low bits above the high bits of the next. -/
theorem splitByte_toNat (x y : Byte) {a k : Nat} (h : a + k ≤ 8) :
    ((x &&& BitVec.ofNat 8 (2 ^ a - 1)) <<< k ||| y >>> (8 - k)).toNat =
      x.toNat % 2 ^ a * 2 ^ k + y.toNat / 2 ^ (8 - k) := by
  have hy : (y >>> (8 - k)).toNat < 2 ^ k := ushiftRight_lt (by omega) y.isLt
  have hx : x.toNat % 2 ^ a < 2 ^ (8 - k) :=
    (Nat.mod_lt _ (Nat.two_pow_pos a)).trans_le (Nat.pow_le_pow_right (by decide) (by omega))
  rw [shiftLeft_or_toNat (by omega) hy, and_low_toNat x (by omega), ushiftRight_toNat, Nat.mod_eq_of_lt hx]

section
variable (p0 p1 p2 p3 p4 : Byte)

theorem encodeGroup_toNat : (encodeGroup p0 p1 p2 p3 p4).map BitVec.toNat =
    [p0.toNat / 8, p0.toNat % 8 * 4 + p1.toNat / 64, p1.toNat / 2 % 32, p1.toNat % 2 * 16 + p2.toNat / 16,
      p2.toNat % 16 * 2 + p3.toNat / 128, p3.toNat / 4 % 32, p3.toNat % 4 * 8 + p4.toNat / 32, p4.toNat % 32] := by
  have hlow (x : Byte) : (x &&& 0x1F).toNat = x.toNat % 32 := and_low_toNat x (n := 5) (by decide)
  have h1 : ((p0 &&& 0x07) <<< 2 ||| p1 >>> 6).toNat = p0.toNat % 8 * 4 + p1.toNat / 64 :=
    splitByte_toNat p0 p1 (a := 3) (k := 2) (by decide)
  have h3 : ((p1 &&& 0x01) <<< 4 ||| p2 >>> 4).toNat = p1.toNat % 2 * 16 + p2.toNat / 16 :=
    splitByte_toNat p1 p2 (a := 1) (k := 4) (by decide)
  have h4 : ((p2 &&& 0x0F) <<< 1 ||| p3 >>> 7).toNat = p2.toNat % 16 * 2 + p3.toNat / 128 :=
    splitByte_toNat p2 p3 (a := 4) (k := 1) (by decide)
  have h6 : ((p3 &&& 0x03) <<< 3 ||| p4 >>> 5).toNat = p3.toNat % 4 * 8 + p4.toNat / 32 :=
    splitByte_toNat p3 p4 (a := 2) (k := 3) (by decide)
  simp only [encodeGroup, List.map_cons, List.map_nil, hlow, h1, h3, h4, h6, ushiftRight_toNat, Nat.reducePow]

/-- The formulas of R196 are the digits of their five bytes. -/
theorem digits_be_group : digits 8 (be [p0, p1, p2, p3, p4]) = (encodeGroup p0 p1 p2 p3 p4).map BitVec.toNat := by
  have hbe : be [p0, p1, p2, p3, p4] =
    p0.toNat * 2 ^ 32 + p1.toNat * 2 ^ 24 + p2.toNat * 2 ^ 16 + p3.toNat * 2 ^ 8 + p4.toNat := by
    simp only [be, List.foldl_cons, List.foldl_nil]
    omega
  have hp0 := p0.isLt
  have hp1 := p1.isLt
  have hp2 := p2.isLt
  have hp3 := p3.isLt
  have hp4 := p4.isLt
  rw [hbe, encodeGroup_toNat]
  simp only [digits_succ, digits_zero, List.nil_append, List.cons_append, List.cons.injEq, and_true]
  omega

theorem digits_be_first (b : Byte) : digits 2 (be [b]) = [b >>> 5, b &&& 0x1F].map BitVec.toNat := by
  have hlow : (b &&& 0x1F).toNat = b.toNat % 32 := and_low_toNat b (n := 5) (by decide)
  have hb := b.isLt
  simp only [digits_succ, digits_zero, be, List.foldl_cons, List.foldl_nil, List.map_cons, List.map_nil, hlow,
    ushiftRight_toNat, List.nil_append, List.cons_append, List.cons.injEq, and_true]
  omega

end

/-- The digits of a sequence whose last five bytes are a group (R196). -/
theorem digits_be_append_group (m : Nat) (bs : List Byte) {gs : List Byte} (hgs : gs.length = 5) :
    digits (m + 8) (be (bs ++ gs)) = digits m (be bs) ++ digits 8 (be gs) := by
  have hlt := be_lt gs
  rw [be_append, hgs]
  rw [hgs] at hlt
  exact digits_append m _ hlt

/-- Settles O51: five bytes are eight whole digits, so a chunk is cut at its groups. -/
theorem encodeDigitsAreTheFixedFormulas : Obligations.EncodeDigitsAreTheFixedFormulas := by
  refine ⟨fun b0 b1 b2 b3 b4 b5 => ?_, fun b0 b1 b2 b3 b4 b5 b6 b7 b8 b9 => ?_⟩
  · rw [← List.singleton_append, digits_be_append_group 2 [b0] rfl, digits_be_first, digits_be_group]
    rfl
  · dsimp only
    have h := digits_be_append_group 8 [b0, b1, b2, b3, b4] (gs := [b5, b6, b7, b8, b9]) rfl
    rw [digits_be_group, digits_be_group, ← List.map_append] at h
    exact h

/-- Two digits put together: the lower one gives its high bits. -/
theorem joinDigits_toNat (x : Byte) {y : Byte} {k : Nat} (hk : k ≤ 5) (hy : y.toNat < 32) :
    (x <<< k ||| y >>> (5 - k)).toNat = x.toNat % 2 ^ (8 - k) * 2 ^ k + y.toNat / 2 ^ (5 - k) := by
  rw [shiftLeft_or_toNat (by omega) (ushiftRight_lt hk hy), ushiftRight_toNat]

/-- Three digits put together: the upper one gives the low bits that fit, the lower one its high bits. -/
theorem joinThreeDigits_toNat (x : Byte) {y z : Byte} {k : Nat} (hk : k ≤ 3) (hy : y.toNat < 32) (hz : z.toNat < 32) :
    (x <<< (k + 5) ||| y <<< k ||| z >>> (5 - k)).toNat =
      x.toNat % 2 ^ (3 - k) * 2 ^ (k + 5) + (y.toNat * 2 ^ k + z.toNat / 2 ^ (5 - k)) := by
  have hy8 : y.toNat < 2 ^ (8 - k) :=
    Nat.lt_of_lt_of_le hy (Nat.pow_le_pow_right (n := 2) (by decide) (by omega : 5 ≤ 8 - k))
  have hlow : (y <<< k ||| z >>> (5 - k)).toNat = y.toNat * 2 ^ k + z.toNat / 2 ^ (5 - k) := by
    rw [joinDigits_toNat y (by omega) hz, Nat.mod_eq_of_lt hy8]
  have hlt : (y <<< k ||| z >>> (5 - k)).toNat < 2 ^ (k + 5) := by
    rw [hlow, Nat.add_comm k 5, ← ushiftRight_toNat]
    exact mul_two_pow_add_lt hy (ushiftRight_lt (by omega) hz)
  rw [BitVec.or_assoc, shiftLeft_or_toNat (by omega) hlt, hlow, show 8 - (k + 5) = 3 - k by omega]

/-- The formulas of R201 are the bytes of their eight digits. -/
theorem be_decodeGroup {q0 q1 q2 q3 q4 q5 q6 q7 : Byte}
    (hq : ∀ d ∈ [q0, q1, q2, q3, q4, q5, q6, q7], d.toNat < 32) :
    be (decodeGroup q0 q1 q2 q3 q4 q5 q6 q7) = digitsValue [q0, q1, q2, q3, q4, q5, q6, q7] := by
  simp only [List.forall_mem_cons] at hq
  obtain ⟨hq0, hq1, hq2, hq3, hq4, hq5, hq6, hq7, -⟩ := hq
  have hm1 : (q1 &&& 0x03).toNat = q1.toNat % 4 := and_low_toNat q1 (n := 2) (by decide)
  have hm3 : (q3 &&& 0x0F).toNat = q3.toNat % 16 := and_low_toNat q3 (n := 4) (by decide)
  have hm4 : (q4 &&& 0x01).toNat = q4.toNat % 2 := and_low_toNat q4 (n := 1) (by decide)
  have hm6 : (q6 &&& 0x07).toNat = q6.toNat % 8 := and_low_toNat q6 (n := 3) (by decide)
  have hb0 : (q0 <<< 3 ||| q1 >>> 2).toNat = q0.toNat % 32 * 8 + q1.toNat / 4 :=
    joinDigits_toNat q0 (k := 3) (by decide) hq1
  have hb1 : ((q1 &&& 0x03) <<< 6 ||| q2 <<< 1 ||| q3 >>> 4).toNat =
      (q1 &&& 0x03).toNat % 4 * 64 + (q2.toNat * 2 + q3.toNat / 16) :=
    joinThreeDigits_toNat (q1 &&& 0x03) (k := 1) (by decide) hq2 hq3
  have hb2 : ((q3 &&& 0x0F) <<< 4 ||| q4 >>> 1).toNat = (q3 &&& 0x0F).toNat % 16 * 16 + q4.toNat / 2 :=
    joinDigits_toNat (q3 &&& 0x0F) (k := 4) (by decide) hq4
  have hb3 : ((q4 &&& 0x01) <<< 7 ||| q5 <<< 2 ||| q6 >>> 3).toNat =
      (q4 &&& 0x01).toNat % 2 * 128 + (q5.toNat * 4 + q6.toNat / 8) :=
    joinThreeDigits_toNat (q4 &&& 0x01) (k := 2) (by decide) hq5 hq6
  have hb4 : ((q6 &&& 0x07) <<< 5 ||| q7).toNat = (q6 &&& 0x07).toNat % 8 * 32 + q7.toNat :=
    shiftLeft_or_toNat (by decide) hq7
  simp only [decodeGroup, be, digitsValue, List.foldl_cons, List.foldl_nil, hb0, hb1, hb2, hb3, hb4, hm1, hm3, hm4, hm6]
  omega

/-- The first byte of a 10-character text drops the two excess bits (R200, R202). -/
theorem be_decodeFirst {d0 d1 : Byte} (h1 : d1.toNat < 32) :
    be [(d0 &&& 0x07) <<< 5 ||| d1] = digitsValue [d0, d1] % 256 := by
  have hm : (d0 &&& 0x07).toNat = d0.toNat % 8 := and_low_toNat d0 (n := 3) (by decide)
  have hb : ((d0 &&& 0x07) <<< 5 ||| d1).toNat = (d0 &&& 0x07).toNat % 8 * 32 + d1.toNat :=
    shiftLeft_or_toNat (by decide) h1
  simp only [be, digitsValue, List.foldl_cons, List.foldl_nil, hb, hm]
  omega

/-- Settles O54: eight digits are five whole bytes, so a text is cut at its groups. -/
theorem decodeBytesAreTheFixedFormulas : Obligations.DecodeBytesAreTheFixedFormulas := by
  refine ⟨fun d0 d1 d2 d3 d4 d5 d6 d7 d8 d9 hd => ?_, fun d0 d1 d2 d3 d4 d5 d6 d7 e0 e1 e2 e3 e4 e5 e6 e7 hde => ?_⟩
  · obtain ⟨-, h1, hgroup⟩ := List.forall_mem_cons.1 hd |>.imp_right List.forall_mem_cons.1
    have hlt : digitsValue [d2, d3, d4, d5, d6, d7, d8, d9] < 32 ^ 8 := digitsValue_lt hgroup
    have hbe : be ([(d0 &&& 0x07) <<< 5 ||| d1] ++ decodeGroup d2 d3 d4 d5 d6 d7 d8 d9) =
        digitsValue ([d0, d1] ++ [d2, d3, d4, d5, d6, d7, d8, d9]) % 2 ^ 48 := by
      rw [be_append, be_decodeFirst h1, be_decodeGroup hgroup, digitsValue_append]
      show digitsValue [d0, d1] % 256 * 256 ^ 5 + _ = (digitsValue [d0, d1] * 32 ^ 8 + _) % 2 ^ 48
      omega
    exact (congrArg (bytes 6) hbe.symm).trans (bytes_of_be_length rfl)
  · obtain ⟨hd, he⟩ := List.forall_mem_append.1
      (show ∀ d ∈ [d0, d1, d2, d3, d4, d5, d6, d7] ++ [e0, e1, e2, e3, e4, e5, e6, e7], d.toNat < 32 from hde)
    have hbe : be (decodeGroup d0 d1 d2 d3 d4 d5 d6 d7 ++ decodeGroup e0 e1 e2 e3 e4 e5 e6 e7) =
        digitsValue ([d0, d1, d2, d3, d4, d5, d6, d7] ++ [e0, e1, e2, e3, e4, e5, e6, e7]) := by
      rw [be_append, be_decodeGroup hd, be_decodeGroup he, digitsValue_append]
      show digitsValue [d0, d1, d2, d3, d4, d5, d6, d7] * 256 ^ 5 + _ = digitsValue _ * 32 ^ 8 + _
      omega
    exact (congrArg (bytes 10) hbe.symm).trans (bytes_of_be_length rfl)

/-! ### The laws of the pair (R204) -/

theorem digitsValue_encodeChars (k v : Nat) : digitsValue ((encodeChars k v).map decodeAt) = v % 32 ^ k := by
  rw [map_decodeAt_encodeChars, digitsValue_digits]

theorem encodeChars_inj {k u v : Nat} (hu : u < 32 ^ k) (hv : v < 32 ^ k) :
    encodeChars k u = encodeChars k v ↔ u = v := by
  refine ⟨fun h => ?_, congrArg _⟩
  have hvalue := congrArg (fun cs => digitsValue (cs.map decodeAt)) h
  simp only [digitsValue_encodeChars] at hvalue
  rwa [Nat.mod_eq_of_lt hu, Nat.mod_eq_of_lt hv] at hvalue

theorem laneList_bytes {n v : Nat} (hn : n ≤ 16) : laneList (lanesOf (bytes n v)) n = bytes n v :=
  laneList_lanesOf_length (bytes_length n v) hn

theorem laneList_encodeChars {k v : Nat} (hk : k ≤ 16) : laneList (lanesOf (encodeChars k v)) k = encodeChars k v :=
  laneList_lanesOf_length (encodeChars_length k v) hk

/-- The bytes of the integer of a chunk are the chunk. -/
theorem bytes_be_laneList (a : Lanes) {n : Nat} (hn : n ≤ 16) : bytes n (be (laneList a n)) = laneList a n :=
  bytes_of_be_length (by rw [laneList_length, Nat.min_eq_left hn])

/-- Settles O55: the text spells the integer of the chunk, whose bytes are the chunk. -/
theorem decodeOfEncodeIsTheChunk : Obligations.DecodeOfEncodeIsTheChunk := by
  refine ⟨fun s t u ht hu => ?_, fun s t u ht hu => ?_⟩
  · obtain rfl := Host.Outcome.next.inj ((exec_b32Enc (.inl rfl) s).symm.trans ht)
    exact ⟨_, exec_b32Dec_ten hu (be_laneList_lt _ (by decide)), rfl,
      (laneList_bytes (by decide)).trans (bytes_be_laneList _ (by decide))⟩
  · obtain rfl := Host.Outcome.next.inj ((exec_b32Enc (.inr rfl) s).symm.trans ht)
    exact ⟨_, exec_b32Dec_sixteen hu (be_laneList_lt _ (by decide)), rfl,
      (laneList_bytes (by decide)).trans (bytes_be_laneList _ (by decide))⟩

/-- B32_ENC of the bytes of an integer that fits them answers the characters of the integer. -/
theorem exec_b32Enc_bytes {n v : Nat} {s t : State} (hn : n = 6 ∨ n = 10) (hv : v < 256 ^ n)
    (ha : s.cmd.a = lanesOf (bytes n v)) (h : exec (.b32Enc n) s = .next t) :
    laneList t.resp.payload.q (encodedLength n) = encodeChars (encodedLength n) v := by
  obtain rfl := Host.Outcome.next.inj ((exec_b32Enc hn s).symm.trans h)
  refine (laneList_encodeChars ?_).trans ?_
  · rcases hn with rfl | rfl <;> decide
  · rw [ha, laneList_bytes (by omega), be_bytes hv]

/-- Settles O56: the text of the integer of valid characters is the characters; of ten the bytes keep just the
integer below the excess, and another integer has another text. -/
theorem encodeOfDecodeIsTheText : Obligations.EncodeOfDecodeIsTheText := by
  refine ⟨fun s t u v ht herr hu hv => ?_, fun s t u v ht herr hu hv => ?_⟩
  · have hvalid := valid_of_exec_b32Dec (.inr rfl) ht herr
    obtain rfl := Host.Outcome.next.inj ((exec_b32Dec_sixteen_of_valid hvalid).symm.trans ht)
    exact (exec_b32Enc_bytes (.inr rfl) (textValue_lt (by decide) hvalid) hu hv).trans
      (encodeChars_textValue (by decide) hvalid)
  · have hvalid := valid_of_exec_b32Dec (.inl rfl) ht herr
    obtain ⟨-, -, hbytes, -⟩ := overRangeMeansFirstDigitEightOrMore s t hvalid ht
    have hlt := textValue_lt (by decide) hvalid
    have htext : laneList v.resp.payload.q 10 = encodeChars 10 (textValue s.cmd.a 10 % 2 ^ 48) :=
      exec_b32Enc_bytes (.inl rfl) (Nat.mod_lt _ (by decide)) (hu.trans (hbytes herr)) hv
    have hexcess := textValue_excess hvalid
    rw [htext, ← encodeChars_textValue (by decide) hvalid, encodeChars_inj (by omega) hlt]
    omega

/-- The first digit is the highest, the others those of the same integer. -/
theorem digits_cons (k v : Nat) : digits (k + 1) v = v / 32 ^ k % 32 :: digits k v := by
  rw [digits, List.range_succ_eq_map, List.map_cons, List.map_map]
  congr 1
  · simp [Nat.shiftRight_eq_div_pow, Nat.pow_mul]
  · refine List.map_congr_left fun j _ => ?_
    rw [Function.comp_apply, show k + 1 - 1 - (j + 1) = k - 1 - j by omega]

theorem encodeChars_cons (k v : Nat) :
    encodeChars (k + 1) v = alphabetAt (v / 32 ^ k % 32) :: encodeChars k v :=
  congrArg _ (digits_cons k v)

theorem alphabetAt_strictMonoOn : StrictMonoOn (fun v => (alphabetAt v).toNat) (Set.Iio 32) :=
  fun w _ v hv hwv => alphabetAt_strictMono v hv w hwv

/-- Integers with a digit above the rest are in the order of that digit, then of the rest. -/
theorem add_mul_lt_iff_lex {b x x' y y' : Nat} (hy : y < b) (hy' : y' < b) :
    y + b * x < y' + b * x' ↔ x < x' ∨ x = x' ∧ y < y' := by
  have hnext {m n : Nat} (h : m < n) : b * m + b ≤ b * n := Nat.mul_le_mul_left b h
  rcases lt_trichotomy x x' with hlt | rfl | hgt
  · have := hnext hlt
    omega
  · omega
  · have := hnext hgt
    omega

/-- The texts of the low digits of two integers are in the order of the integers those digits spell. -/
theorem encodeChars_lt_iff (k u v : Nat) :
    (encodeChars k u).map BitVec.toNat < (encodeChars k v).map BitVec.toNat ↔ u % 32 ^ k < v % 32 ^ k := by
  induction k with
  | zero => simp [encodeChars, Nat.mod_one]
  | succ k ih =>
    have hpow : 0 < 32 ^ k := Nat.pow_pos (by decide)
    have hu : u / 32 ^ k % 32 ∈ Set.Iio 32 := Nat.mod_lt _ (by decide)
    have hv : v / 32 ^ k % 32 ∈ Set.Iio 32 := Nat.mod_lt _ (by decide)
    rw [encodeChars_cons, encodeChars_cons, List.map_cons, List.map_cons, List.cons_lt_cons_iff, ih,
      alphabetAt_strictMonoOn.lt_iff_lt hu hv, alphabetAt_strictMonoOn.injOn.eq_iff hu hv, Nat.mod_pow_succ,
      Nat.mod_pow_succ, add_mul_lt_iff_lex (Nat.mod_lt _ hpow) (Nat.mod_lt _ hpow)]

/-- Settles O57: an integer below `32 ^ k` is what its `k` low digits spell. -/
theorem textSortsAsTheIntegersItSpells : Obligations.TextSortsAsTheIntegersItSpells := by
  intro k u v hu hv
  rw [encodeChars_lt_iff, Nat.mod_eq_of_lt hu, Nat.mod_eq_of_lt hv]

end Sys2Proof.Machine

/-! PROOFS. The statement of 43_control.md: NOP (R220). -/

namespace Sys2Proof.Machine

/-- Settles O26: NOP is a well-formed command, and its meaning is the success with an empty payload. -/
theorem nopOnlyRecordsSuccess : Obligations.NopOnlyRecordsSuccess :=
  ⟨decode_encode (i := .nop) rfl, respond_eq {}⟩

end Sys2Proof.Machine

/-! PROOFS. The statement of 60_exceptions.md: how every command ends (R230, R234, R236). -/

namespace Sys2Proof.Machine

/-- An answer `Ends` describes is clean, whatever unit writes it allows: only a success may use them. -/
theorem ends_cleanly {sfMay mcMay : Prop} {s : State} {o : Result} (h : Ends sfMay mcMay s o) :
    ∃ t : State, o = .next t ∧ EndsCleanly s t := by
  cases h with
  | ok t p eq frame status => exact ⟨_, eq, okState_endsCleanly p status⟩
  | err t e info eq frame status sf mc => exact ⟨_, eq, errState_endsCleanly e info sf mc⟩

/-- Settles O18: every command, and every word presented, ends as `Ends` says. -/
theorem everyCommandEndsWithOneCleanResponse : Obligations.EveryCommandEndsWithOneCleanResponse := by
  refine ⟨fun i s => ends_cleanly (exec_ends i s), fun s => ?_⟩
  obtain ⟨_, _, hends⟩ := execPresented_ends s
  exact ends_cleanly hends

end Sys2Proof.Machine

/-! PROOFS. The statement of 70_reset_and_hazards.md: what a reset leaves (R270). -/

namespace Sys2Proof.Machine

/-- Settles O12: a reset step answers `resetState`, whose registers are those of R44; the integer -1 of SF_LAST_TICK is
the word of all ones. -/
theorem resetSetsEveryRegisterInOneStep : Obligations.ResetSetsEveryRegisterInOneStep := by
  intro s hnext
  have hlastTick : SfUnit.reset = ⟨false, 0, 0, 0, 0, BitVec.ofInt 64 (-1), 0⟩ := by decide
  exact ⟨resetState s, step_reset hnext, (resetState_sf s).trans hlastTick, resetState_mc s, resetState_status s,
    resetState_resetIn s, resetState_build s, resetState_hosts s⟩

end Sys2Proof.Machine

/-! PROOFS. The statements about the event order: what the next event can be, and what a step does when nothing is
presented or a reset is asserted (R62, R271, log entries 7, 8 and 12). -/

namespace Sys2Proof.Machine

theorem readyHosts_eq_nil {s : State} : readyHosts s = [] ↔ ∀ p ∈ s.hosts, p.issued = [] := readyFrom_eq_nil

theorem nextEvent_idle {s : State} (hreset : s.resetIn = false) (hready : readyHosts s = []) : nextEvent s = .idle := by
  simp only [nextEvent, hreset, hready]

/-- Settles O8: with no reset and no ready host the next event is idle. -/
theorem idleStepChangesNothing : Obligations.IdleStepChangesNothing := fun _ hreset hqueues =>
  step_idle (nextEvent_idle hreset (readyHosts_eq_nil.2 hqueues))

/-- Settles O9, by the four events there are: a host granted is one of the ready ones. -/
theorem nextEventIsAWaitingCommandOrAnAssertedReset : Obligations.NextEventIsAWaitingCommandOrAnAssertedReset := by
  intro s
  rcases nextEvent_cases s with ⟨he, hreset, hready⟩ | ⟨he, hreset⟩ | ⟨h, he, hmem, -⟩ | ⟨h, he, hreset, hmem, -⟩ <;>
    rw [he]
  · exact ⟨hreset, readyHosts_eq_nil.1 hready⟩
  · exact hreset
  · exact readyHosts_waiting hmem
  · exact ⟨hreset, readyHosts_waiting hmem⟩

/-- Settles O13, by the four things a step can do: an asserted reset leaves no idle step, and neither the execution of
a command nor the discarding of one changes the reset input. -/
theorem assertedResetHappensNowOrAfterAWaitingCommand : Obligations.AssertedResetHappensNowOrAfterAWaitingCommand := by
  intro s hreset
  rcases step_cases s with ⟨-, hidle, -, -⟩ | ⟨he, -, -⟩ | ⟨h, p, r, rest, u, he, hp, hq, hu, hstep⟩ |
    ⟨h, p, he, -, hp, hne, hstep⟩
  · exact absurd (hreset.symm.trans hidle) (by decide)
  · exact .inl he
  · have frame : OuterFrame (presented h r s) u := execPresented_frame hu
    exact .inr ⟨h, p, deliver h u, hp, by simp [hq], hstep, frame.resetIn.trans hreset, .inl he⟩
  · have own : (takeFrom h s).hosts[h]? = some ⟨p.issued.tail, p.answers, s.choices + 1⟩ := by simp [hp]
    exact .inr ⟨h, p, takeFrom h s, hp, hne, hstep, hreset, .inr ⟨he, rfl, rfl, rfl, own, (took_takeFrom hp).others⟩⟩

end Sys2Proof.Machine
